-- ==== Sys2Proof/Word.lean ====
section
/-! DEFINITION. The word types of the block (spec/00_scope.md R7, R8; spec/20_memory.md R36, R38).

Every value is unsigned; bit 0 is the least significant bit (R8). The block's unit of data is the 64-bit word
(R39); bytes occur only where the host turns streams into words and words into a digest (R40, R41). -/

namespace Sys2Proof

/-- One byte of a message stream or of a digest (R40, R41). -/
abbrev Byte := BitVec 8

/-- A 64-bit word: one lane value, one register, one message-memory cell, one bus datum (R7, R38). -/
abbrev Word := BitVec 64

/-- A 32-bit byte offset of the host bus (R36). -/
abbrev Offset := BitVec 32

/-- A vector word: the list of its lane values, lane 0 first (R9, R17). A block with N lanes holds lists of length N;
that the length is N is the invariant `State.Shaped`, which every step keeps. -/
abbrev VecWord := List Word

/-- The hash state file `H[0..7]` (R18). -/
abbrev HFile := Vector VecWord 8

/-- The working register file `V[0..15]` (R19). -/
abbrev VFile := Vector VecWord 16

/-- The input block file `M[0..15]` (R20). -/
abbrev MFile := Vector VecWord 16

end Sys2Proof
end

