-- ==== Sys2Proof/Config.lean ====
section
/-! DEFINITION. The parameters of one block (spec/00_scope.md R5, R6; spec/92_eei_decisions.md D2, D3) and the free
values of the spec (R11 `draw64`, R50). -/

namespace Sys2Proof

/-- What an implementation fixes when the block is configured: `LANES` (N) and `MSG_WORDS`. A machine carries its
configuration in `State.cfg`, and no step changes it (R5, R34). Which configurations are admitted is `Machine.admitted`
(R5, R6); a step of a machine with any other is refused (R12, R123). -/
structure Config where
  /-- `LANES`, the number N of lanes (R5). -/
  lanes : Nat
  /-- `MSG_WORDS`, the capacity of the message memory per lane, in 64-bit words (R6). -/
  msgWords : Nat
  deriving DecidableEq, Repr

/-- The configuration of `State.reset`: N = 4 and MSG_WORDS = 1024, the one spec/95_test_vectors.md uses "unless
stated". DESIGN CHOICE (notes/assumptions/1.md): the spec leaves both open; every statement is about every
configuration. -/
def Config.standard : Config := { lanes := 4, msgWords := 1024 }

/-- `draw64()` (R11): "a 64-bit value the spec leaves unspecified. A model takes it as a free input under no law."
The step applies it to the counter `State.draws`, which each draw advances, so each read that returns a draw returns a
fresh one (R50). It has no body on purpose: nothing can be proved of its values (DESIGN CHOICE,
notes/assumptions/8.md). -/
opaque Config.draw64 : Nat → Word

end Sys2Proof
end

