-- ==== Sys2Proof/Syntax.lean ====
section
/-! DEFINITION. The instructions: one constructor for each of the 13 rows of spec/opcode_table.json, four host
commands (spec/30_encoding.md R64) and nine internal operations of the engine (R67).

The internal operations have no host encoding. The spec gives each its operands and its result; where it gives a
result no place (ADD, XOR and ROTR are written `Z <- f(X, Y)`, R9; SCHED "return"s its pair, R89) the model's syntax
names one: an explicit destination, and the output port `schedX`, `schedY` (notes/assumptions/6.md). -/

namespace Sys2Proof

/-- The rotation distances of the mixer, "exactly 32, 24, 16 and 63" (R75, R79). -/
inductive RotDist where
  | r32
  | r24
  | r16
  | r63
  deriving DecidableEq, Repr

/-- A vector operand of an internal operation: a word of one of the three files (R17), one of the two message words
that SCHED answered (R89), or a broadcast scalar (R76). -/
inductive VSrc where
  | v (k : Fin 16)
  | h (k : Fin 8)
  | m (k : Fin 16)
  | schedX
  | schedY
  | splat (w : Word)
  deriving DecidableEq, Repr

/-- Where a lane operation leaves its result: a working register (R78, R95) or a hash state word (R98, R108). -/
inductive VDst where
  | v (k : Fin 16)
  | h (k : Fin 8)
  deriving DecidableEq, Repr

/-- The instructions. -/
inductive Instr where
  /-- NOP (R109). -/
  | nop
  /-- INIT (R108). -/
  | init
  /-- COMPRESS with its isFinal flag F (R100). -/
  | compress (f : Bool)
  /-- HASH (R114). -/
  | hash
  /-- ADD (internal, R73), lane by lane: `d <- a + b`. -/
  | add (d : VDst) (a b : VSrc)
  /-- XOR (internal, R74), lane by lane: `d <- a ^ b`. -/
  | xor (d : VDst) (a b : VSrc)
  /-- ROTR (internal, R75), lane by lane: `d <- rotr(a, n)`. -/
  | rotr (d : VDst) (a : VSrc) (n : RotDist)
  /-- G (internal, R78): four working registers and two message vector words. -/
  | g (a b c d : Fin 16) (x y : VSrc)
  /-- SCHED (internal, R89): round number and call number. -/
  | sched (r : Fin 12) (c : Fin 8)
  /-- VINIT (internal, R95): the byte offset t and the final flag f. -/
  | vinit (t : Word) (f : Bool)
  /-- ROUND (internal, R97): the round number. -/
  | round (r : Fin 12)
  /-- FEED (internal, R98). -/
  | feed
  /-- BUILD (internal, R113): the block index. -/
  | build (n : Nat)
  deriving DecidableEq, Repr

/-- The instructions that a host command word can stand for (R64); the others are internal operations (R67). -/
def Instr.isHostCommand : Instr → Bool
  | .nop => true
  | .init => true
  | .compress _ => true
  | .hash => true
  | .add _ _ _ => false
  | .xor _ _ _ => false
  | .rotr _ _ _ => false
  | .g _ _ _ _ _ _ => false
  | .sched _ _ => false
  | .vinit _ _ => false
  | .round _ => false
  | .feed => false
  | .build _ => false

end Sys2Proof
end

