-- ==== Sys2Proof/WellFormed.lean ====
section
/-! DEFINITION. Which instructions are well formed: the limits on operands that the spec states and the types of
Syntax.lean do not already carry (the types bound register, word, round and call numbers and rotation distances). -/

namespace Sys2Proof

/-- A message operand of G: "x and y are two message words chosen by the scheduler" (R77), named in M or taken from
SCHED's output. -/
def VSrc.isMessage : VSrc → Bool
  | .m _ => true
  | .schedX => true
  | .schedY => true
  | .v _ => false
  | .h _ => false
  | .splat _ => false

/-- "a, b, c and d are four distinct registers" (R77). -/
def distinctRegs (a b c d : Fin 16) : Bool :=
  a != b && a != c && a != d && b != c && b != d && c != d

/-- The number of blocks of the longest message any admitted configuration can hold: B(2^25) = 2^21 (R6, R110). -/
def maxBlocks : Nat := 2097152

/-- The well-formedness check. Host commands and the lane operations have no ill-formed operand; G's registers are
distinct, its message operands are message words and two different ones (R77); BUILD's block index is below B (R113,
with R6 and R110). -/
def Instr.wellFormed : Instr → Bool
  | .nop => true
  | .init => true
  | .compress _ => true
  | .hash => true
  | .add _ _ _ => true
  | .xor _ _ _ => true
  | .rotr _ _ _ => true
  | .g a b c d x y => distinctRegs a b c d && x.isMessage && y.isMessage && x != y
  | .sched _ _ => true
  | .vinit _ _ => true
  | .round _ => true
  | .feed => true
  | .build n => decide (n < maxBlocks)

end Sys2Proof
end

