-- ==== Sys2Proof/Decode.lean ====
section
/-! DEFINITION. The command decoder and encoder (spec/30_encoding.md R61 to R67).

A command is one 64-bit word written to CMD: OPC in bits 3:0, F in bit 8, everything else reserved (R61). The block
addresses no bytes (R39), so the decoder reads the word itself. -/

namespace Sys2Proof

/-- What a command word decodes to: "NOP | INIT | COMPRESS(F) | HASH | BadOpcode | ReservedBits" (R65). -/
inductive Decoded where
  | nop
  | init
  | compress (f : Bool)
  | hash
  | badOpcode
  | reservedBits
  deriving DecidableEq, Repr

/-- OPC, bits[3:0] of a command word (R61). -/
def opcodeOf (w : Word) : Nat := (w.extractLsb' 0 4).toNat

/-- F, bit 8 of a command word (R61, R63). -/
def flagOf (w : Word) : Bool := w.getLsbD 8

/-- The bits that an opcode allows to be 1: OPC, and F for COMPRESS alone (R65). -/
def allowedBits (opc : Nat) : Word := 0x000000000000000F ||| (if opc = 2 then 0x100 else 0)

/-- The decode function of R65, total on every 64-bit word; BadOpcode is checked before ReservedBits. -/
def decode (w : Word) : Decoded :=
  if 4 ≤ opcodeOf w then .badOpcode
  else if w &&& ~~~ allowedBits (opcodeOf w) ≠ 0 then .reservedBits
  else if opcodeOf w = 0 then .nop
  else if opcodeOf w = 1 then .init
  else if opcodeOf w = 2 then .compress (flagOf w)
  else .hash

/-- The instruction a decoded command stands for; none where the decoder rejects the word by name. -/
def Decoded.toInstr? : Decoded → Option Instr
  | .nop => some .nop
  | .init => some .init
  | .compress f => some (.compress f)
  | .hash => some .hash
  | .badOpcode => none
  | .reservedBits => none

/-- The command word of a host command, from the opcode map (R64). An internal operation has no host encoding (R67). -/
def encode : Instr → Option Word
  | .nop => some 0x0000000000000000
  | .init => some 0x0000000000000001
  | .compress f => some (if f then 0x0000000000000102 else 0x0000000000000002)
  | .hash => some 0x0000000000000003
  | .add _ _ _ => none
  | .xor _ _ _ => none
  | .rotr _ _ _ => none
  | .g _ _ _ _ _ _ => none
  | .sched _ _ => none
  | .vinit _ _ => none
  | .round _ => none
  | .feed => none
  | .build _ => none

/-- The command word that the low `nbits` bits of `w` stand for, every bit above them 0. -/
def tableWord (nbits w : Nat) : Word := BitVec.ofNat 64 (w % 2 ^ nbits)

/-- The instruction the decoder reads from an instruction whose bits are `w`, numbered as spec/opcode_table.json
numbers them: a command is one word, whose bit i is bit i of the bus datum (R38). -/
def decodeTableWord (nbits w : Nat) : Option Instr := (decode (tableWord nbits w)).toInstr?

end Sys2Proof
end

