-- ==== Sys2Proof/Machine/State.lean ====
section
/-! DEFINITION. The state of the machine: all that spec/10_state.md gives it (R35 is the spec's own complete list), the
two agents' interleaving (R57) and the model's own fields, which are named as such.

ID, CONFIG and CMD hold no state: the first two are constants of the configuration (R22, R23), CMD reads 0 (R24).
The constants IV, σ, PARAM and the rotation distances are no state either (R34). -/

namespace Sys2Proof.Machine

/-- Which kind of host access a bus fault records (R133). -/
inductive AccessKind where
  | read
  | write
  deriving DecidableEq, Repr

/-- The model faults (R133). A step that meets one records it in `State.faulted` and has no other effect; from then on
every agent but reset stops with it (R134). All of them are SAFE: the model gives no outcome where real hardware would
give some outcome (R134). -/
inductive Fault where
  /-- BUS_FAULT, raised by a host access of a size other than 8, at a misaligned or unmapped offset (R43, R49), or by a
  write to ID, CONFIG, STATUS, BCOUNT, BTOTAL or H (R52). SAFE. -/
  | busFault (kind : AccessKind) (off : Offset) (size : Nat)
  /-- UNINIT_READ, raised by a host read of an unwritten MSG cell (R51). SAFE. -/
  | uninitRead (off : Offset)
  /-- UNINIT_MSG, raised by the completion of HASH, or by BUILD on its own, when MSG[j][k] with k < LEN is unwritten;
  smallest k, then smallest j (R114). SAFE. -/
  | uninitMsg (j k : Nat)
  deriving DecidableEq, Repr

/-- Why a step gives no machine. -/
inductive Refusal where
  /-- An instruction without a meaning, raised by a refused arm of `exec` (no arm is refused now). SAFE. -/
  | notModelled (mnemonic : String)
  /-- The configuration refusal, raised by `step` when `State.cfg` is outside the admitted set (R12, R123). SAFE. -/
  | badConfig (lanes msgWords : Nat)
  deriving DecidableEq, Repr

/-- The codes of STATUS.ERR (R129). Codes 6 to 15 are never produced, so they have no constructor. -/
inductive ErrCode where
  | noError
  | busyCmd
  | badOpcode
  | reservedBits
  | lenRange
  | busyWrite
  deriving DecidableEq, Repr

/-- An accepted command that waits for the engine: `(opc, F)` with opc in {INIT, COMPRESS, HASH} (R30). F is 0 but for
COMPRESS (R130), so only COMPRESS carries it. -/
inductive Pending where
  | init
  | compress (f : Bool)
  | hash
  deriving DecidableEq, Repr

/-- One atomic step of one of the two agents (R15, R57): the host reads, writes or asserts reset, or the engine takes
its turn. -/
inductive Event where
  /-- `BusRead(off, size)` (R43). -/
  | busRead (off : Offset) (size : Nat)
  /-- `BusWrite(off, size, v)` (R43). -/
  | busWrite (off : Offset) (size : Nat) (v : Word)
  /-- The engine's completion step, which exists while a command is pending (R30, R58). -/
  | engineTurn
  /-- The reset input is asserted (R145). -/
  | resetInput
  deriving DecidableEq, Repr

/-- One written cell of the message memory: the byte offset of its location in the MSG window (R48) and its word. The
block's smallest addressable unit is the 64-bit location (R38, R39; notes/assumptions/3.md). -/
abbrev MsgCell := Nat × Word

/-- The message memory: its written cells, by strictly rising offset (`Memory.wf`). A cell that is not listed is
unwritten (R21). -/
abbrev Memory := List MsgCell

/-- The state of the machine. -/
structure State where
  /-- The configuration (N, MSG_WORDS); a parameter that no step changes (R5, R34). -/
  cfg : Config
  /-- Hash State `H[0..7]` (R18). -/
  h : HFile
  /-- Working registers `V[0..15]` (R19; kept between commands, notes/assumptions/11.md). -/
  v : VFile
  /-- Input Block `M[0..15]` (R20). -/
  m : MFile
  /-- The model's own: the x word that SCHED, run on its own, answered last (R89). -/
  schedX : VecWord
  /-- The model's own: the y word that SCHED, run on its own, answered last (R89). -/
  schedY : VecWord
  /-- Message memory `MSG[j][k]` (R21). -/
  msg : Memory
  /-- STATUS.BUSY (R25). -/
  busy : Bool
  /-- STATUS.FINAL (R25). -/
  isFinal : Bool
  /-- STATUS.ERR (R25). -/
  err : ErrCode
  /-- LEN (R26). -/
  len : Word
  /-- T0, the Byte Offset Counter (R27). -/
  t0 : Word
  /-- BCOUNT (R28). -/
  bcount : Word
  /-- BTOTAL (R29). -/
  btotal : Word
  /-- PEND (R30). -/
  pend : Option Pending
  /-- FAULTED (R33). -/
  faulted : Option Fault
  /-- The model's own: the events still to come, first one first. Any interleaving of the agents (R57) is such a list;
  when it is empty, a pending command completes (weak fairness, R159) and an idle block does nothing (R143). -/
  schedule : List Event
  /-- The model's own: the value the last admitted host read returned to the host, none before the first. -/
  readData : Option Word
  /-- The model's own: how many draws have been taken (R11, R50). -/
  draws : Nat
  deriving DecidableEq, Repr

/-- The state right after power-on of a block with configuration `c` (R144, R148). V has no reset value and is 0 here
(DESIGN CHOICE, notes/assumptions/2.md), and so are the model's own fields. -/
def State.resetWith (c : Config) : State where
  cfg := c
  h := Vector.replicate 8 (List.replicate c.lanes 0)
  v := Vector.replicate 16 (List.replicate c.lanes 0)
  m := Vector.replicate 16 (List.replicate c.lanes 0)
  schedX := List.replicate c.lanes 0
  schedY := List.replicate c.lanes 0
  msg := []
  busy := false
  isFinal := false
  err := .noError
  len := 0
  t0 := 0
  bcount := 0
  btotal := 0
  pend := none
  faulted := none
  schedule := []
  readData := none
  draws := 0

/-- The machine right after reset, in the standard configuration. -/
def State.reset : State := State.resetWith Config.standard

end Sys2Proof.Machine
end

