-- ==== Sys2Proof/Machine/Constants.lean ====
section
/-! DEFINITION. The constants of the block: no access and no command can change them (spec/10_state.md R34), and none
of them has an address (R37) but ID and CONFIG. -/

namespace Sys2Proof.Machine

/-- The admitted configurations: N in {1, 2, 4, 8} and 1 <= MSG_WORDS <= 2^25 (R5, R6, R123). -/
def admitted (c : Config) : Bool :=
  (c.lanes == 1 || c.lanes == 2 || c.lanes == 4 || c.lanes == 8) &&
    (decide (1 ≤ c.msgWords) && decide (c.msgWords ≤ 2 ^ 25))

/-- "ONES is 0xFFFF_FFFF_FFFF_FFFF" (R10). -/
def ones : Word := 0xFFFFFFFFFFFFFFFF

/-- The initialisation vector IV[0..7] (R94). -/
def iv : Vector Word 8 :=
  #v[0x6A09E667F3BCC908, 0xBB67AE8584CAA73B, 0x3C6EF372FE94F82B, 0xA54FF53A5F1D36F1,
     0x510E527FADE682D1, 0x9B05688C2B3E6C1F, 0x1F83D9ABFB41BD6B, 0x5BE0CD19137E2179]

/-- The key length, 0 (R7, R107). -/
def keyLength : Word := 0

/-- The digest length in bytes, 32 (R7, R107). -/
def digestLength : Word := 32

/-- `PARAM = 0x01010000 ^ (key_length << 8) ^ digest_length` (R107). -/
def param : Word := 0x01010000 ^^^ (keyLength <<< 8) ^^^ digestLength

/-- The σ table (R84): 10 rows of 16 message word indices. -/
def sigma : Vector (Vector (Fin 16) 16) 10 :=
  #v[#v[0, 1, 2, 3, 4, 5, 6, 7, 8, 9, 10, 11, 12, 13, 14, 15],
     #v[14, 10, 4, 8, 9, 15, 13, 6, 1, 12, 0, 2, 11, 7, 5, 3],
     #v[11, 8, 12, 0, 5, 2, 15, 13, 10, 14, 3, 6, 7, 1, 9, 4],
     #v[7, 9, 3, 1, 13, 12, 11, 14, 2, 6, 5, 10, 4, 0, 15, 8],
     #v[9, 0, 5, 7, 2, 4, 10, 15, 14, 1, 11, 12, 6, 8, 3, 13],
     #v[2, 12, 6, 10, 0, 11, 8, 3, 4, 13, 7, 5, 15, 14, 1, 9],
     #v[12, 5, 1, 15, 14, 13, 4, 10, 0, 7, 6, 3, 9, 2, 8, 11],
     #v[13, 11, 7, 14, 12, 1, 3, 9, 5, 0, 15, 4, 8, 6, 2, 10],
     #v[6, 15, 14, 9, 11, 3, 0, 8, 12, 2, 13, 7, 1, 4, 10, 5],
     #v[10, 2, 8, 4, 7, 6, 1, 5, 15, 11, 9, 14, 3, 12, 13, 0]]

/-- The row that round r uses, `r mod 10` (R86). -/
def sigmaRow (r : Fin 12) : Vector (Fin 16) 16 := sigma[r.val % 10]'(Nat.mod_lt _ (by decide))

/-- The value of ID, "B2BW" and interface revision 1 (R22). -/
def idValue : Word := 0x4232425700000001

/-- The number of rounds, 12, as CONFIG reports it (R7, R23). -/
def roundsField : Nat := 12

/-- The number of digest words, 4, as CONFIG reports it (R7, R23). -/
def digestWordsField : Nat := 4

/-- The value of CONFIG (R23): LANES in bits 7:0, ROUNDS in 15:8, DIGEST_WORDS in 23:16, 0 in 31:24, MSG_WORDS in
63:32. -/
def configValue (c : Config) : Word :=
  BitVec.ofNat 64 c.lanes ||| (BitVec.ofNat 64 roundsField <<< 8) |||
    (BitVec.ofNat 64 digestWordsField <<< 16) ||| (BitVec.ofNat 64 c.msgWords <<< 32)

end Sys2Proof.Machine
end

