-- ==== Sys2Proof/Machine/Lanes.lean ====
section
/-! DEFINITION. Lane arithmetic (spec/40_lane_mixer.md R72 to R76) and the one helper that fills a register file.

Every operation is lane-wise: "No carry, bit or value crosses from one lane to another" (R72). None sets a flag
(R73 to R75). -/

namespace Sys2Proof.Machine

/-- `rotr(x, n) = ((x >> n) | (x << (64 - n))) mod 2^64` (R10, R75). -/
def rotr (x : Word) (n : Nat) : Word := (x >>> n) ||| (x <<< (64 - n))

/-- A rotation distance as a number (R79). -/
def distance : RotDist → Nat
  | .r32 => 32
  | .r24 => 24
  | .r16 => 16
  | .r63 => 63

/-- Lane-wise addition mod 2^64 (R72, R73). -/
def vadd (a b : VecWord) : VecWord := List.zipWith (· + ·) a b

/-- Lane-wise exclusive or (R72, R74). -/
def vxor (a b : VecWord) : VecWord := List.zipWith (· ^^^ ·) a b

/-- Lane-wise rotation right by one distance (R72, R75). -/
def vrotr (a : VecWord) (n : RotDist) : VecWord := a.map (rotr · (distance n))

/-- `splat(w)` on N lanes: the vector word whose every lane holds w (R9, R76). -/
def splat (lanes : Nat) (w : Word) : VecWord := List.replicate lanes w

/-- Lane j of a vector word. No access reaches a lane j >= N (R17); the total function answers 0 there. -/
def laneOf (a : VecWord) (j : Nat) : Word := a.getD j 0

/-- The file whose word k is `f k`. -/
def tabulate {α : Type} (n : Nat) (f : Fin n → α) : Vector α n :=
  ⟨((List.finRange n).map f).toArray, by simp⟩

end Sys2Proof.Machine
end

