-- ==== Sys2Proof/Machine/Flags.lean ====
section
/-! DEFINITION. The flags: STATUS (spec/10_state.md R25) and its error code (spec/60_exceptions.md R129). "The block
has no other flags or condition codes. The lane arithmetic sets no carry, overflow or zero flags" (R32). -/

namespace Sys2Proof.Machine

/-- The four bits of STATUS.ERR (R129). -/
def errBits : ErrCode → BitVec 4
  | .noError => 0
  | .busyCmd => 1
  | .badOpcode => 2
  | .reservedBits => 3
  | .lenRange => 4
  | .busyWrite => 5

/-- A one-bit field as a word. -/
def flagBit (b : Bool) : Word := if b then 1 else 0

/-- STATUS as the host reads it (R25): BUSY in bit 0, FINAL in bit 1, ERR in bits 7:4, every other bit 0. -/
def State.statusWord (s : State) : Word :=
  flagBit s.busy ||| (flagBit s.isFinal <<< 1) ||| ((errBits s.err).zeroExtend 64 <<< 4)

/-- `STATUS.ERR <- code`, all that a hardware error does (R124), and what an accepted command does with code 0
(R126). -/
def State.setErr (s : State) (e : ErrCode) : State := { s with err := e }

end Sys2Proof.Machine
end

