-- ==== Sys2Proof/Machine/Operands.lean ====
section
/-! DEFINITION. Operands of the internal operations: reading a vector operand, writing a vector destination
(spec/00_scope.md R9; spec/40_lane_mixer.md R76, R77). -/

namespace Sys2Proof.Machine

/-- `V[k] <- x`. -/
def State.setV (s : State) (k : Fin 16) (x : VecWord) : State := { s with v := s.v.set k x }

/-- `H[k] <- x`. -/
def State.setH (s : State) (k : Fin 8) (x : VecWord) : State := { s with h := s.h.set k x }

/-- `M[k] <- x`. -/
def State.setM (s : State) (k : Fin 16) (x : VecWord) : State := { s with m := s.m.set k x }

/-- The vector word an operand stands for; a scalar stands for its splat (R9, R76). -/
def State.readSrc (s : State) : VSrc → VecWord
  | .v k => s.v[k]
  | .h k => s.h[k]
  | .m k => s.m[k]
  | .schedX => s.schedX
  | .schedY => s.schedY
  | .splat w => splat s.cfg.lanes w

/-- `d <- x`. -/
def State.writeDst (s : State) : VDst → VecWord → State
  | .v k, x => s.setV k x
  | .h k, x => s.setH k x

end Sys2Proof.Machine
end

