-- ==== Sys2Proof/Machine/Ops.lean ====
section
/-! DEFINITION. The named operations over memory and registers that several meanings and the bus share: the message
memory (spec/10_state.md R21), model faults and hardware errors (spec/60_exceptions.md R122, R124, R134), the sequencer
(R30), reset (spec/70_reset_and_hazards.md R145 to R148).

The block takes no exception and returns from none: "There is no trap entry. No event saves state, changes mode or
redirects control" (R136), "There is no trap return and no trap nesting" (R137). What stands in an exception's place is
a hardware error (`State.setErr`, Flags.lean), which the next accepted command clears, and a model fault
(`State.raise`). -/

namespace Sys2Proof.Machine

/-! ### The message memory -/

/-- What a cell that is not listed reads as: no value, it is unwritten (R21). -/
def Memory.unlisted : Option Word := none

/-- The word at offset `a`; none where the cell is unwritten. -/
def Memory.read : Memory → Nat → Option Word
  | [], _ => Memory.unlisted
  | c :: rest, a => if a = c.1 then some c.2 else Memory.read rest a

/-- The memory in which the cell at offset `a` is written with `w`, in its place by rising offset. -/
def Memory.write : Memory → Nat → Word → Memory
  | [], a, w => [(a, w)]
  | c :: rest, a, w =>
    if a < c.1 then (a, w) :: c :: rest
    else if a = c.1 then (a, w) :: rest
    else c :: Memory.write rest a w

/-- The canonical form: offsets strictly rising. (No listed cell can hold what an unlisted one reads as, because a
listed cell holds a word.) -/
abbrev Memory.wf (m : Memory) : Prop := List.Pairwise (fun c d : MsgCell => c.1 < d.1) m

/-- The offset of MSG[j][k], `0x8000_0000 + 64·k + 8·j` (R48). -/
def msgOffset (j k : Nat) : Nat := 0x80000000 + 64 * k + 8 * j

/-- MSG[j][k]; none where the cell is unwritten (R21). -/
def State.readMsg (s : State) (j k : Nat) : Option Word := Memory.read s.msg (msgOffset j k)

/-- `MSG[j][k] <- w`, and the cell is written (R21, R54). -/
def State.writeMsg (s : State) (j k : Nat) (w : Word) : State :=
  { s with msg := Memory.write s.msg (msgOffset j k) w }

/-- The first unwritten cell (j, k) with j < N and k in `ks`: the first such k, then the smallest j (R114, R133). -/
def State.firstUnwritten (s : State) (ks : List Nat) : Option (Nat × Nat) :=
  ks.findSome? fun k =>
    (List.range s.cfg.lanes).findSome? fun j => if s.readMsg j k = none then some (j, k) else none

/-! ### Faults and the value a host read returns -/

/-- `raise ModelFault(f)` (R11, R134): FAULTED records the first fault taken; "the step has no other effect" (R133;
notes/assumptions/9.md). -/
def State.raise (s : State) (f : Fault) : State := { s with faulted := s.faulted.or (some f) }

/-- An admitted host read returns `w` (R50). -/
def State.returns (s : State) (w : Word) : State := { s with readData := some w }

/-- An admitted host read returns `draw64()`, a fresh draw each time (R50). -/
def State.returnsDraw (s : State) : State :=
  { s with readData := some (Config.draw64 s.draws), draws := s.draws + 1 }

/-! ### The sequencer -/

/-- An accepted command other than NOP: `PEND <- (opc, F) ; STATUS.BUSY <- 1` with `STATUS.ERR <- 0` (R130). -/
def State.accept (s : State) (p : Pending) : State :=
  { s with err := .noError, pend := some p, busy := true }

/-- The end of a completion: `PEND <- none ; STATUS.BUSY <- 0` (R30, R100, R108, R114). -/
def State.complete (s : State) : State := { s with pend := none, busy := false }

/-- The instruction that a pending command is. -/
def Pending.toInstr : Pending → Instr
  | .init => .init
  | .compress f => .compress f
  | .hash => .hash

/-! ### The schedule and reset -/

/-- The state after the first scheduled event has been taken off. -/
def State.pop (s : State) : State := { s with schedule := s.schedule.tail }

/-- Reset (R145 to R148): every piece of the block's state at its reset value; the configuration and FAULTED stay
(R147), and so do the model's own schedule, read datum and draw counter, which lie outside the block. -/
def State.resetBlock (s : State) : State :=
  { State.resetWith s.cfg with
    faulted := s.faulted, schedule := s.schedule, readData := s.readData, draws := s.draws }

end Sys2Proof.Machine
end

