-- ==== Sys2Proof/Machine/Mixer.lean ====
section
/-! DEFINITION. The vector-lane mixer: ADD, XOR, ROTR and G (spec/40_lane_mixer.md). -/

namespace Sys2Proof.Machine

/-- ADD (R73), lane by lane (R72). -/
def execAdd (d : VDst) (a b : VSrc) (s : State) : Host.Outcome State Fault Refusal :=
  .next (s.writeDst d (vadd (s.readSrc a) (s.readSrc b)))

/-- XOR (R74), lane by lane (R72). -/
def execXor (d : VDst) (a b : VSrc) (s : State) : Host.Outcome State Fault Refusal :=
  .next (s.writeDst d (vxor (s.readSrc a) (s.readSrc b)))

/-- ROTR (R75), lane by lane (R72). -/
def execRotr (d : VDst) (a : VSrc) (n : RotDist) (s : State) : Host.Outcome State Fault Refusal :=
  .next (s.writeDst d (vrotr (s.readSrc a) n))

/-- The eight lines of G (R78), in order, on a working register file and two message vector words. "Every line reads
the values the lines before it wrote." -/
def gMix (a b c d : Fin 16) (x y : VecWord) (v : VFile) : VFile :=
  let v := v.set a (vadd (vadd v[a] v[b]) x)
  let v := v.set d (vrotr (vxor v[d] v[a]) .r32)
  let v := v.set c (vadd v[c] v[d])
  let v := v.set b (vrotr (vxor v[b] v[c]) .r24)
  let v := v.set a (vadd (vadd v[a] v[b]) y)
  let v := v.set d (vrotr (vxor v[d] v[a]) .r16)
  let v := v.set c (vadd v[c] v[d])
  v.set b (vrotr (vxor v[b] v[c]) .r63)

/-- G (R78). It reads and writes only V[a], V[b], V[c] and V[d] and reads its two message words (R77). -/
def execG (a b c d : Fin 16) (x y : VSrc) (s : State) : Host.Outcome State Fault Refusal :=
  .next { s with v := gMix a b c d (s.readSrc x) (s.readSrc y) s.v }

end Sys2Proof.Machine
end

