-- ==== Sys2Proof/Machine/Scheduler.lean ====
section
/-! DEFINITION. The message-block scheduler (spec/41_message_schedule.md). -/

namespace Sys2Proof.Machine

/-- The message word index of call c's x: permuted position 2c of the round's row (R86 to R89). -/
def schedIndexX (r : Fin 12) (c : Fin 8) : Fin 16 := (sigmaRow r)[2 * c.val]

/-- The message word index of call c's y: permuted position 2c + 1 of the round's row (R86 to R89). -/
def schedIndexY (r : Fin 12) (c : Fin 8) : Fin 16 := (sigmaRow r)[2 * c.val + 1]

/-- SCHED(r, c): the pair (x, y) of message vector words for call c of round r (R89). -/
def schedPair (m : MFile) (r : Fin 12) (c : Fin 8) : VecWord × VecWord :=
  (m[schedIndexX r c], m[schedIndexY r c])

/-- SCHED (R89) on its own: "The scheduler reads M and writes nothing" (R90); the pair it returns stands in the model's
output port `schedX`, `schedY`, where a G run on its own can take it. -/
def execSched (r : Fin 12) (c : Fin 8) (s : State) : Host.Outcome State Fault Refusal :=
  .next { s with schedX := (schedPair s.m r c).1, schedY := (schedPair s.m r c).2 }

end Sys2Proof.Machine
end

