-- ==== Sys2Proof/Machine/Compress.lean ====
section
/-! DEFINITION. Lane-parallel compression: VINIT, ROUND, FEED and the COMPRESS command (spec/42_compress.md). -/

namespace Sys2Proof.Machine

/-- VINIT(t, f) (R95): V[0..7] from H, V[8..15] from the IV, then t into V[12] and the final-flag mask into V[14];
V[13] and V[15] keep IV[5] and IV[7]. -/
def vinitFile (lanes : Nat) (h : HFile) (t : Word) (f : Bool) : VFile :=
  let v : VFile := tabulate 16 fun k =>
    if hk : k.val < 8 then h[k.val] else splat lanes (iv[k.val - 8]'(by omega))
  let v := v.set 12 (vxor v[12] (splat lanes t))
  v.set 14 (vxor v[14] (splat lanes (if f then ones else 0)))

/-- VINIT (R95). -/
def execVinit (t : Word) (f : Bool) (s : State) : Host.Outcome State Fault Refusal :=
  .next { s with v := vinitFile s.cfg.lanes s.h t f }

/-- One call `G(a, b, c, d, SCHED(r, g))` of a round (R97). -/
def scheduledMix (m : MFile) (r : Fin 12) (g : Fin 8) (a b c d : Fin 16) (v : VFile) : VFile :=
  gMix a b c d (schedPair m r g).1 (schedPair m r g).2 v

/-- ROUND(r) (R97): the column step (R80), then the diagonal step (R81). -/
def roundFile (m : MFile) (r : Fin 12) (v : VFile) : VFile :=
  let v := scheduledMix m r 0 0 4 8 12 v
  let v := scheduledMix m r 1 1 5 9 13 v
  let v := scheduledMix m r 2 2 6 10 14 v
  let v := scheduledMix m r 3 3 7 11 15 v
  let v := scheduledMix m r 4 0 5 10 15 v
  let v := scheduledMix m r 5 1 6 11 12 v
  let v := scheduledMix m r 6 2 7 8 13 v
  scheduledMix m r 7 3 4 9 14 v

/-- ROUND (R97). -/
def execRound (r : Fin 12) (s : State) : Host.Outcome State Fault Refusal :=
  .next { s with v := roundFile s.m r s.v }

/-- The round loop: "exactly 12 rounds run in order, r = 0, 1, ..., 11" (R96). -/
def allRounds (m : MFile) (v : VFile) : VFile :=
  (List.finRange 12).foldl (fun v r => roundFile m r v) v

/-- FEED (R98): `H[i] <- H[i] ^ V[i] ^ V[i+8]`, with the H from before the compression on the right. -/
def feedFile (h : HFile) (v : VFile) : HFile :=
  tabulate 8 fun k => vxor (vxor h[k.val] v[k.val]) (v[k.val + 8]'(by omega))

/-- FEED (R98). -/
def execFeed (s : State) : Host.Outcome State Fault Refusal :=
  .next { s with h := feedFile s.h s.v }

/-- The working registers as a compression leaves them: VINIT, then the 12 rounds (R99). -/
def compressedV (lanes : Nat) (h : HFile) (m : MFile) (t : Word) (f : Bool) : VFile :=
  allRounds m (vinitFile lanes h t f)

/-- The compression function `compress(H, M, t, f)` (R92, R99). -/
def compressedH (lanes : Nat) (h : HFile) (m : MFile) (t : Word) (f : Bool) : HFile :=
  feedFile h (compressedV lanes h m t f)

/-- One compression of the engine (R100, R114): H and V by R99 with t = T0, `BCOUNT <- BCOUNT + 1` mod 2^64,
`STATUS.FINAL <- f`. Both COMPRESS and each block of HASH are this. -/
def State.compression (s : State) (f : Bool) : State :=
  { s with
    h := compressedH s.cfg.lanes s.h s.m s.t0 f
    v := compressedV s.cfg.lanes s.h s.m s.t0 f
    bcount := s.bcount + 1
    isFinal := f }

/-- COMPRESS (R100), its completion by the engine. Its issue is `State.issue` (Bus.lean, R130). -/
def execCompress (f : Bool) (s : State) : Host.Outcome State Fault Refusal :=
  .next (s.compression f).complete

end Sys2Proof.Machine
end

