-- ==== Sys2Proof/Machine/Hash.lean ====
section
/-! DEFINITION. NOP, INIT, the padding engine with its counters (BUILD), and HASH (spec/43_init_hash_padding.md). -/

namespace Sys2Proof.Machine

/-- NOP (R109): "STATUS.ERR <- 0 and nothing else". It has no completion step: the engine never sees it. -/
def execNop (s : State) : Host.Outcome State Fault Refusal := .next (s.setErr .noError)

/-- The hash state that INIT leaves: `H[i] <- splat(IV[i])`, then `H[0] <- H[0] ^ splat(PARAM)` (R108). -/
def initFile (lanes : Nat) : HFile :=
  let h : HFile := tabulate 8 fun k => splat lanes iv[k]
  h.set 0 (vxor h[0] (splat lanes param))

/-- The INIT step (R108), also step 1 of HASH (R114): H, `BCOUNT <- 0`, `STATUS.FINAL <- 0`. -/
def State.initStep (s : State) : State :=
  { s with h := initFile s.cfg.lanes, bcount := 0, isFinal := false }

/-- INIT (R108), its completion by the engine. -/
def execInit (s : State) : Host.Outcome State Fault Refusal := .next s.initStep.complete

/-- `B(L) = 1 if L == 0 else ceil(L / 16)` (R110). -/
def blockCount (len : Nat) : Nat := if len = 0 then 1 else (len + 15) / 16

/-- `T(i) = min((i + 1) * 16, L) * 8` (R111), in bytes per lane. -/
def byteOffset (len n : Nat) : Nat := min ((n + 1) * 16) len * 8

/-- `F(i) = (i == B - 1)` (R112). -/
def finalFlag (len n : Nat) : Bool := n == blockCount len - 1

/-- The word that BUILD(n) puts into M[k][j]: `MSG[j][16n + k]` below L, 0 past the end (R113). The meanings check first
that every cell below L is written, so the default is never taken there. -/
def State.blockWord (s : State) (len n k j : Nat) : Word :=
  if 16 * n + k < len then (s.readMsg j (16 * n + k)).getD 0 else 0

/-- BUILD(n) (R113) for a message of `len` words: M is written whole. -/
def State.buildBlock (s : State) (len n : Nat) : State :=
  { s with m := tabulate 16 fun k => (List.range s.cfg.lanes).map fun j => s.blockWord len n k.val j }

/-- The word indices below `len` that block n holds. -/
def blockIndices (len n : Nat) : List Nat := ((List.range 16).map (16 * n + ·)).filter (· < len)

/-- BUILD (R113) on its own, with L = LEN. HASH has checked every cell before it builds a block (R114); run on its own
over an unwritten cell BUILD takes the same model fault, UNINIT_MSG (notes/assumptions/7.md). -/
def execBuild (n : Nat) (s : State) : Host.Outcome State Fault Refusal :=
  match s.firstUnwritten (blockIndices s.len.toNat n) with
  | some (j, k) => .next (s.raise (.uninitMsg j k))
  | none => .next (s.buildBlock s.len.toNat n)

/-- One block of HASH (R114): `BUILD(i) ; T0 <- T(i) ; H <- compress(H, M, T0, F(i)) ; BCOUNT <- BCOUNT + 1 ;
STATUS.FINAL <- F(i)`. -/
def State.hashBlock (s : State) (len n : Nat) : State :=
  State.compression { s.buildBlock len n with t0 := BitVec.ofNat 64 (byteOffset len n) } (finalFlag len n)

/-- HASH of a message of `len` written words (R114): the INIT step, `BTOTAL <- B`, and the B blocks in order. -/
def State.hashMessage (s : State) (len : Nat) : State :=
  (List.range (blockCount len)).foldl (fun t n => t.hashBlock len n)
    { s.initStep with btotal := BitVec.ofNat 64 (blockCount len) }

/-- HASH (R114), its completion by the engine: the check of every MSG[j][k] with k < LEN comes first, and then "no state
changes" if one is unwritten. -/
def execHash (s : State) : Host.Outcome State Fault Refusal :=
  match s.firstUnwritten (List.range s.len.toNat) with
  | some (j, k) => .next (s.raise (.uninitMsg j k))
  | none => .next (s.hashMessage s.len.toNat).complete

end Sys2Proof.Machine
end

