-- ==== Sys2Proof/Machine/Bus.lean ====
section
/-! DEFINITION. The host bus: address map, admission, reads, writes and the issue of a command
(spec/20_memory.md R43 to R55; spec/60_exceptions.md R124, R130, R133). -/

namespace Sys2Proof.Machine

/-- The locations of the address map (R45). A vector word is named by its index, a lane by its position. -/
inductive Loc where
  | id
  | config
  | cmd
  | status
  | len
  | t0
  | bcount
  | btotal
  | h (k : Fin 8) (j : Nat)
  | m (k : Fin 16) (j : Nat)
  | msg (j k : Nat)
  deriving DecidableEq, Repr

/-- The word index of an offset in a window that begins at `base` (R46 to R48). -/
def windowWord (base off : Nat) : Nat := (off - base) / 64

/-- The lane position of an offset in a window that begins at `base` (R46 to R48). -/
def windowLane (base off : Nat) : Nat := ((off - base) % 64) / 8

/-- The register at an offset (R45). -/
def decodeRegister (off : Nat) : Option Loc :=
  if off = 0x00 then some .id
  else if off = 0x08 then some .config
  else if off = 0x10 then some .cmd
  else if off = 0x18 then some .status
  else if off = 0x20 then some .len
  else if off = 0x28 then some .t0
  else if off = 0x30 then some .bcount
  else if off = 0x38 then some .btotal
  else none

/-- The location of the H window at an offset (R46). -/
def decodeH (c : Config) (off : Nat) : Option Loc :=
  if 0x100 ≤ off ∧ off < 0x300 ∧ windowLane 0x100 off < c.lanes then
    some (.h (Fin.ofNat 8 (windowWord 0x100 off)) (windowLane 0x100 off))
  else none

/-- The location of the M window at an offset (R47). -/
def decodeM (c : Config) (off : Nat) : Option Loc :=
  if 0x400 ≤ off ∧ off < 0x800 ∧ windowLane 0x400 off < c.lanes then
    some (.m (Fin.ofNat 16 (windowWord 0x400 off)) (windowLane 0x400 off))
  else none

/-- The location of the MSG window at an offset (R48). -/
def decodeMsg (c : Config) (off : Nat) : Option Loc :=
  if 0x80000000 ≤ off ∧ off < 0x80000000 + 64 * c.msgWords ∧ windowLane 0x80000000 off < c.lanes then
    some (.msg (windowLane 0x80000000 off) (windowWord 0x80000000 off))
  else none

/-- `decode(off)` of R49; none is UNMAPPED. "The caller has already checked off % 8 == 0". The ranges are disjoint, so
the first part that answers is the only one. -/
def decodeOffset (c : Config) (off : Nat) : Option Loc :=
  (decodeRegister off).or ((decodeH c off).or ((decodeM c off).or (decodeMsg c off)))

/-- The offset of a location (R45 to R48, R70). -/
def Loc.offset : Loc → Nat
  | .id => 0x00
  | .config => 0x08
  | .cmd => 0x10
  | .status => 0x18
  | .len => 0x20
  | .t0 => 0x28
  | .bcount => 0x30
  | .btotal => 0x38
  | .h k j => 0x100 + 64 * k.val + 8 * j
  | .m k j => 0x400 + 64 * k.val + 8 * j
  | .msg j k => msgOffset j k

/-- The location an access reaches, if it is admitted: "size = 8; off mod 8 = 0; off decodes to a mapped location"
(R43). -/
def locate (c : Config) (off : Offset) (size : Nat) : Option Loc :=
  if size = 8 ∧ off.toNat % 8 = 0 then decodeOffset c off.toNat else none

/-- What an admitted read of a location that the engine writes answers: the exact value while idle, a fresh draw while
busy (R50). -/
def State.returnsUnlessBusy (s : State) (w : Word) : State :=
  if s.busy then s.returnsDraw else s.returns w

/-- An admitted read of a location (R50, R51); reading has no side effect on the block (R44). -/
def State.readLoc (s : State) (off : Offset) : Loc → State
  | .id => s.returns idValue
  | .config => s.returns (configValue s.cfg)
  | .cmd => s.returns 0
  | .status => s.returns s.statusWord
  | .len => s.returns s.len
  | .t0 => s.returnsUnlessBusy s.t0
  | .bcount => s.returnsUnlessBusy s.bcount
  | .btotal => s.returnsUnlessBusy s.btotal
  | .h k j => s.returnsUnlessBusy (laneOf s.h[k] j)
  | .m k j => s.returnsUnlessBusy (laneOf s.m[k] j)
  | .msg j k =>
    match s.readMsg j k with
    | some w => s.returns w
    | none => s.raise (.uninitRead off)

/-- `BusRead(off, size)` (R43, R50). -/
def State.busRead (s : State) (off : Offset) (size : Nat) : State :=
  match locate s.cfg off size with
  | some l => s.readLoc off l
  | none => s.raise (.busFault .read off size)

/-- The issue procedure of R130 for a host write of `w` to CMD: the checks in order, the first that applies wins. -/
def State.issue (s : State) (w : Word) : State :=
  if s.busy then s.setErr .busyCmd
  else
    match decode w with
    | .badOpcode => s.setErr .badOpcode
    | .reservedBits => s.setErr .reservedBits
    | .nop => s.setErr .noError
    | .init => s.accept .init
    | .compress f => s.accept (.compress f)
    | .hash => if s.len.toNat > s.cfg.msgWords then s.setErr .lenRange else s.accept .hash

/-- A host write to an operand location: stored while idle (R54), dropped with BUSY_WRITE while busy (R55). -/
def State.storesUnlessBusy (s stored : State) : State :=
  if s.busy then s.setErr .busyWrite else stored

/-- An admitted access that writes `w` to a location (R52 to R55). -/
def State.writeLoc (s : State) (off : Offset) (w : Word) : Loc → State
  | .id => s.raise (.busFault .write off 8)
  | .config => s.raise (.busFault .write off 8)
  | .cmd => s.issue w
  | .status => s.raise (.busFault .write off 8)
  | .len => s.storesUnlessBusy { s with len := w }
  | .t0 => s.storesUnlessBusy { s with t0 := w }
  | .bcount => s.raise (.busFault .write off 8)
  | .btotal => s.raise (.busFault .write off 8)
  | .h _ _ => s.raise (.busFault .write off 8)
  | .m k j => s.storesUnlessBusy (s.setM k (s.m[k].set j w))
  | .msg j k => s.storesUnlessBusy (s.writeMsg j k w)

/-- `BusWrite(off, size, w)` (R43, R52 to R55). -/
def State.busWrite (s : State) (off : Offset) (size : Nat) (w : Word) : State :=
  match locate s.cfg off size with
  | some l => s.writeLoc off w l
  | none => s.raise (.busFault .write off size)

end Sys2Proof.Machine
end

