-- ==== Sys2Proof/Machine/Dispatch.lean ====
section
/-! DEFINITION. One arm for each instruction. -/

namespace Sys2Proof.Machine

/-- What an instruction does: for a host command, what its execution by the engine does (for NOP, what its issue does,
since it has no completion, R109); for an internal operation, what that operation does. -/
def exec (i : Instr) (s : State) : Host.Outcome State Fault Refusal :=
  match i with
  | .nop => Sys2Proof.Machine.execNop s
  | .init => Sys2Proof.Machine.execInit s
  | .compress f => Sys2Proof.Machine.execCompress f s
  | .hash => Sys2Proof.Machine.execHash s
  | .add d a b => Sys2Proof.Machine.execAdd d a b s
  | .xor d a b => Sys2Proof.Machine.execXor d a b s
  | .rotr d a n => Sys2Proof.Machine.execRotr d a n s
  | .g a b c d x y => Sys2Proof.Machine.execG a b c d x y s
  | .sched r c => Sys2Proof.Machine.execSched r c s
  | .vinit t f => Sys2Proof.Machine.execVinit t f s
  | .round r => Sys2Proof.Machine.execRound r s
  | .feed => Sys2Proof.Machine.execFeed s
  | .build n => Sys2Proof.Machine.execBuild n s

end Sys2Proof.Machine
end

