-- ==== Sys2Proof/Machine/Engine.lean ====
section
/-! DEFINITION. The two agents' steps (spec/10_state.md R15; spec/20_memory.md R57, R58): a host event, the engine's
turn, and what a faulted machine does (spec/60_exceptions.md R134). -/

namespace Sys2Proof.Machine

/-- The engine's turn (R30, R58): it performs the pending command, in one step; while none is pending, the engine has
no step and the state stays. -/
def engineStep (s : State) : Host.Outcome State Fault Refusal :=
  match s.pend with
  | some p => exec p.toInstr s
  | none => .next s

/-- One scheduled event of a machine that is not faulted, already taken off the schedule. -/
def runEvent (s : State) : Event → Host.Outcome State Fault Refusal
  | .busRead off size => .next (s.busRead off size)
  | .busWrite off size w => .next (s.busWrite off size w)
  | .engineTurn => engineStep s
  | .resetInput => .next s.resetBlock

/-- One event of a machine with FAULTED = f: reset runs and keeps FAULTED (R147); every other agent has stopped, as
R134 allows (DESIGN CHOICE, notes/assumptions/9.md). -/
def runFaulted (s : State) (f : Fault) : Event → Host.Outcome State Fault Refusal
  | .resetInput => .next s.resetBlock
  | .busRead _ _ => .fault f
  | .busWrite _ _ _ => .fault f
  | .engineTurn => .fault f

/-- One step of an admitted machine: its first scheduled event; with nothing scheduled, the engine's turn (weak
fairness, R58, R159), which leaves an idle block as it is (R143). -/
def runNext (s : State) : Host.Outcome State Fault Refusal :=
  match s.faulted, s.schedule with
  | none, [] => engineStep s
  | none, e :: _ => runEvent s.pop e
  | some f, [] => .fault f
  | some f, e :: _ => runFaulted s.pop f e

/-- The configuration refusal (R12, R123), as an outcome of every step (notes/assumptions/10.md). -/
def refuseConfig (c : Config) : Refusal := .badConfig c.lanes c.msgWords

/-- The offset of CMD as a bus offset (R45). -/
def cmdOffset : Offset := 0x10

/-- `s` with a host command placed where the machine takes its next instruction from: an accepted command in PEND, as
issuing it leaves it (R130), and the engine's turn next; NOP, which never enters PEND (R109), as the next event's write
to CMD, with the block idle so that it is accepted; a word that no command has as the next event's write to CMD. -/
def State.placeCommand (s : State) (w : Word) : State :=
  match decode w with
  | .init => { s.accept .init with schedule := .engineTurn :: s.schedule }
  | .compress f => { s.accept (.compress f) with schedule := .engineTurn :: s.schedule }
  | .hash => { s.accept .hash with schedule := .engineTurn :: s.schedule }
  | .nop => { s.complete with schedule := .busWrite cmdOffset 8 w :: s.schedule }
  | .badOpcode => { s.complete with schedule := .busWrite cmdOffset 8 w :: s.schedule }
  | .reservedBits => { s.complete with schedule := .busWrite cmdOffset 8 w :: s.schedule }

end Sys2Proof.Machine
end

