-- ==== Sys2Proof/Machine/Step.lean ====
section
/-! DEFINITION. The step function and the placing of a command for the host's questions. -/

namespace Sys2Proof.Machine

/-- One step (R12): a next state (in which a hardware error or a model fault may be recorded), the fault of a machine
that has stopped, or the refusal of a configuration outside the admitted set. -/
def step (s : State) : Host.Outcome State Fault Refusal :=
  if admitted s.cfg then runNext s else .refused (refuseConfig s.cfg)

/-- `s` with the command word whose low `nbits` bits are `w` placed so that the very next step runs it (how a command
comes to run from reset: notes/assumptions/5.md). -/
def State.withFetchWord (s : State) (nbits w : Nat) : State := s.placeCommand (tableWord nbits w)

end Sys2Proof.Machine
end

