-- ==== Sys2Proof/Machine/Assembly.lean ====
section
/-! DEFINITION. The host assembly notation (spec/30_encoding.md R68 to R70): what each line of a host program stands
for, as bus accesses. -/

namespace Sys2Proof.Machine

/-- A `<loc>` of the notation (R68): a register name, a symbolic window location, or a hex offset. -/
inductive AsmLoc where
  | id
  | config
  | cmd
  | status
  | len
  | t0
  | bcount
  | btotal
  /-- `H[i].j` -/
  | h (word lane : Nat)
  /-- `M[k].j` -/
  | m (word lane : Nat)
  /-- `MSG[k].j` -/
  | msg (word lane : Nat)
  | offset (off : Offset)
  deriving DecidableEq, Repr

/-- One line of a host program (R68, R69). -/
inductive AsmLine where
  | wr (l : AsmLoc) (w : Word)
  | rd (l : AsmLoc)
  | poll
  | nop
  | init
  | compress
  | compressF
  | hash
  | wait
  | load (k j : Nat) (w : Word)
  | block (k j : Nat) (w : Word)
  | digest (j : Nat)
  deriving DecidableEq, Repr

/-- The offset of a location (R70); none where the assembler refuses it, "lane j >= N, i > 7, k > 15 (for M) or
k >= MSG_WORDS (for MSG)". -/
def assembleLoc (c : Config) : AsmLoc → Option Offset
  | .id => some 0x00
  | .config => some 0x08
  | .cmd => some 0x10
  | .status => some 0x18
  | .len => some 0x20
  | .t0 => some 0x28
  | .bcount => some 0x30
  | .btotal => some 0x38
  | .h w j => if w < 8 ∧ j < c.lanes then some (BitVec.ofNat 32 (0x100 + 64 * w + 8 * j)) else none
  | .m w j => if w < 16 ∧ j < c.lanes then some (BitVec.ofNat 32 (0x400 + 64 * w + 8 * j)) else none
  | .msg w j => if w < c.msgWords ∧ j < c.lanes then some (BitVec.ofNat 32 (msgOffset j w)) else none
  | .offset off => some off

/-- `wr <loc>, <value>` is `BusWrite(offset(loc), 8, value)` (R68). -/
def assembleWrite (c : Config) (l : AsmLoc) (w : Word) : Option (List Event) :=
  (assembleLoc c l).map fun off => [.busWrite off 8 w]

/-- `rd <loc>` is `BusRead(offset(loc), 8)` (R68). -/
def assembleRead (c : Config) (l : AsmLoc) : Option (List Event) :=
  (assembleLoc c l).map fun off => [.busRead off 8]

/-- `poll`, "repeat rd STATUS until STATUS.BUSY == 0" (R68), in the schedule in which the engine takes its turn after
`polls` reads: those reads, the turn, and the read that answers BUSY = 0. How many reads come first is the schedule's
choice (R58). -/
def assemblePoll (polls : Nat) : List Event :=
  List.replicate polls (.busRead 0x18 8) ++ [.engineTurn, .busRead 0x18 8]

/-- The events that a line stands for (R68, R69); none where the assembler refuses it. -/
def assemble (c : Config) (polls : Nat) : AsmLine → Option (List Event)
  | .wr l w => assembleWrite c l w
  | .rd l => assembleRead c l
  | .poll => some (assemblePoll polls)
  | .nop => assembleWrite c .cmd 0x0
  | .init => assembleWrite c .cmd 0x1
  | .compress => assembleWrite c .cmd 0x2
  | .compressF => assembleWrite c .cmd 0x102
  | .hash => assembleWrite c .cmd 0x3
  | .wait => some (assemblePoll polls)
  | .load k j w => assembleWrite c (.msg k j) w
  | .block k j w => assembleWrite c (.m k j) w
  | .digest j => do
    let d0 ← assembleRead c (.h 0 j)
    let d1 ← assembleRead c (.h 1 j)
    let d2 ← assembleRead c (.h 2 j)
    let d3 ← assembleRead c (.h 3 j)
    return d0 ++ d1 ++ d2 ++ d3

/-- The events of a program, line by line; none where the assembler refuses a line. -/
def assembleProgram (c : Config) (polls : Nat) : List AsmLine → Option (List Event)
  | [] => some []
  | line :: rest =>
    match assemble c polls line, assembleProgram c polls rest with
    | some es, some more => some (es ++ more)
    | _, _ => none

end Sys2Proof.Machine
end

