-- ==== Sys2Proof/Machine/ByteOrder.lean ====
section
/-! DEFINITION. How the host turns a byte stream into message words and hash words into a digest
(spec/20_memory.md R40 to R42; spec/43_init_hash_padding.md R116). The block itself never addresses a byte (R39). -/

namespace Sys2Proof.Machine

/-- The little-endian word of (up to) 8 bytes: `sum over t in 0..7 of b[t] << (8t)` (R40). -/
def leWord : List Byte → Word
  | [] => 0
  | b :: rest => b.zeroExtend 64 ||| (leWord rest <<< 8)

/-- The word sequence of a byte stream whose length is a multiple of 8, `w[k]` from `b[8k .. 8k+7]` (R40). Bytes left
over at the end of any other stream make no word: such lengths never reach the block (R4, R39). -/
def messageWords : List Byte → List Word
  | b0 :: b1 :: b2 :: b3 :: b4 :: b5 :: b6 :: b7 :: rest => leWord [b0, b1, b2, b3, b4, b5, b6, b7] :: messageWords rest
  | _ => []

/-- Byte t of a word, `(w >> (8t)) & 0xFF` (R41). -/
def wordByte (w : Word) (t : Nat) : Byte := (w >>> (8 * t)).truncate 8

/-- The eight bytes of a word, least significant first (R41). -/
def wordBytes (w : Word) : List Byte := (List.range 8).map (wordByte w)

/-- The four words H[0..3][j] that make lane j's digest (R116). -/
def State.digestWords (s : State) (j : Nat) : List Word :=
  [laneOf s.h[0] j, laneOf s.h[1] j, laneOf s.h[2] j, laneOf s.h[3] j]

/-- The 32-byte digest of lane j, `d[8i+t] = (H[i][j] >> (8t)) & 0xFF` (R41, R116). -/
def State.digest (s : State) (j : Nat) : List Byte := (s.digestWords j).flatMap wordBytes

/-- The L message words of lane j that HASH reads, L = LEN (R113, R114). -/
def State.laneMessage (s : State) (j : Nat) : List Word :=
  (List.range s.len.toNat).map fun k => (s.readMsg j k).getD 0

end Sys2Proof.Machine
end

