-- ==== Sys2Proof/Machine/Scalar.lean ====
section
/-! DEFINITION. Scalar, single-stream BLAKE2b-256 (spec/42_compress.md R92 to R99; spec/43_init_hash_padding.md R107 to
R113): what one lane computes, written on words instead of vector words. The machine does not use it; the statements
about lanes (R83, R93, R118) compare the machine with it. -/

namespace Sys2Proof.Machine

/-- G (R78) on one lane, for four distinct registers: the eight lines by their intermediate values. -/
def scalarMix (a b c d : Fin 16) (x y : Word) (v : Vector Word 16) : Vector Word 16 :=
  let a1 := v[a] + v[b] + x
  let d1 := rotr (v[d] ^^^ a1) 32
  let c1 := v[c] + d1
  let b1 := rotr (v[b] ^^^ c1) 24
  let a2 := a1 + b1 + y
  let d2 := rotr (d1 ^^^ a2) 16
  let c2 := c1 + d2
  let b2 := rotr (b1 ^^^ c2) 63
  (((v.set a a2).set b b2).set c c2).set d d2

/-- The register groups of the column step (R80) and of the diagonal step (R81), in call order. -/
def registerGroups : List (Fin 8 × Fin 16 × Fin 16 × Fin 16 × Fin 16) :=
  [(0, 0, 4, 8, 12), (1, 1, 5, 9, 13), (2, 2, 6, 10, 14), (3, 3, 7, 11, 15),
   (4, 0, 5, 10, 15), (5, 1, 6, 11, 12), (6, 2, 7, 8, 13), (7, 3, 4, 9, 14)]

/-- One round (R97) on one lane. -/
def scalarRound (m : Vector Word 16) (r : Fin 12) (v : Vector Word 16) : Vector Word 16 :=
  registerGroups.foldl
    (fun v q => scalarMix q.2.1 q.2.2.1 q.2.2.2.1 q.2.2.2.2 m[schedIndexX r q.1] m[schedIndexY r q.1] v) v

/-- The initial working registers (R95) on one lane. -/
def scalarVinit (h : Vector Word 8) (t : Word) (f : Bool) : Vector Word 16 :=
  #v[h[0], h[1], h[2], h[3], h[4], h[5], h[6], h[7], iv[0], iv[1], iv[2], iv[3],
     iv[4] ^^^ t, iv[5], if f then ~~~ iv[6] else iv[6], iv[7]]

/-- The scalar BLAKE2b compression (R93, R99). -/
def scalarCompress (h : Vector Word 8) (m : Vector Word 16) (t : Word) (f : Bool) : Vector Word 8 :=
  let v := (List.finRange 12).foldl (fun v r => scalarRound m r v) (scalarVinit h t f)
  tabulate 8 fun k => h[k.val] ^^^ v[k.val] ^^^ v[k.val + 8]'(by omega)

/-- The initial state: the IV with PARAM in word 0 (R108). -/
def scalarInit : Vector Word 8 := iv.set 0 (iv[0] ^^^ param)

/-- Block n of a message, zero-padded past its end (R113). -/
def scalarBlock (words : List Word) (n : Nat) : Vector Word 16 := tabulate 16 fun k => words.getD (16 * n + k.val) 0

/-- BLAKE2b-256 of a stream of 64-bit words, unkeyed: the final hash state, whose first four words are the digest
(R2, R118). -/
def scalarHash (words : List Word) : Vector Word 8 :=
  (List.range (blockCount words.length)).foldl
    (fun h n =>
      scalarCompress h (scalarBlock words n) (BitVec.ofNat 64 (byteOffset words.length n))
        (finalFlag words.length n))
    scalarInit

/-- BLAKE2b-256 of a byte stream whose length is a multiple of 8, unkeyed: the first four words of the final hash
state, as little-endian bytes (R2, R40, R41, R116). -/
def blake2b256 (bytes : List Byte) : List Byte := ((scalarHash (messageWords bytes)).toList.take 4).flatMap wordBytes

/-- Lane j of the hash state. -/
def laneH (h : HFile) (j : Nat) : Vector Word 8 := tabulate 8 fun k => laneOf h[k.val] j

/-- Lane j of a 16-word file (V or M). -/
def lane16 (v : Vector VecWord 16) (j : Nat) : Vector Word 16 := tabulate 16 fun k => laneOf v[k.val] j

end Sys2Proof.Machine
end

