-- ==== Sys2Proof/Safety.lean ====
section
/-! DEFINITION. What the statements mean by a good state, a good run and a good configuration. -/

namespace Sys2Proof.Machine

/-- Every vector word has one value per lane (spec/10_state.md R17). -/
structure State.Shaped (s : State) : Prop where
  h : ∀ k : Fin 8, s.h[k].length = s.cfg.lanes
  v : ∀ k : Fin 16, s.v[k].length = s.cfg.lanes
  m : ∀ k : Fin 16, s.m[k].length = s.cfg.lanes
  schedX : s.schedX.length = s.cfg.lanes
  schedY : s.schedY.length = s.cfg.lanes

/-- Every written cell of the message memory is a cell MSG[j][k] of the configuration: j < N and k < MSG_WORDS
(R21, R48). -/
def State.MsgInWindow (s : State) : Prop :=
  ∀ c ∈ s.msg, ∃ j k, j < s.cfg.lanes ∧ k < s.cfg.msgWords ∧ c.1 = msgOffset j k

/-- The invariant of the machine: the configuration is admitted (R5, R6); vector words have N lanes (R17); the message
memory is in canonical form and inside its window (R21); "STATUS.BUSY = 1 exactly when PEND ≠ none" (R30); a pending
HASH has LEN in range (R130, R55). -/
structure State.Inv (s : State) : Prop where
  config : admitted s.cfg = true
  shaped : s.Shaped
  msgWf : Memory.wf s.msg
  msgInWindow : s.MsgInWindow
  busyIffPending : s.busy = s.pend.isSome
  hashLen : s.pend = some .hash → s.len.toNat ≤ s.cfg.msgWords

/-- The block is idle: STATUS.BUSY = 0 (R50). -/
def State.Idle (s : State) : Prop := s.busy = false

/-- The machine runs: its configuration is admitted and no model fault has been taken. "Every claim about the block
takes FAULTED = none at the end as a premise" (R134). -/
structure State.Running (s : State) : Prop where
  config : admitted s.cfg = true
  unfaulted : s.faulted = none

/-- Every message word that HASH reads is written: MSG[j][k] for every lane j < N and every k < LEN (R114, R150). -/
def State.MessageWritten (s : State) : Prop :=
  ∀ j k, j < s.cfg.lanes → k < s.len.toNat → s.readMsg j k ≠ none

/-- A location that exists in a configuration: every register, and a window location of a lane j < N, for MSG with
k < MSG_WORDS (R45 to R48). -/
def Loc.mapped (c : Config) : Loc → Prop
  | .id => True
  | .config => True
  | .cmd => True
  | .status => True
  | .len => True
  | .t0 => True
  | .bcount => True
  | .btotal => True
  | .h _ j => j < c.lanes
  | .m _ j => j < c.lanes
  | .msg j k => j < c.lanes ∧ k < c.msgWords

/-- A command word with a reserved bit set: "bits[7:4], bits[63:9], and bit 8 for opcodes other than 0x2" (R66). -/
def ReservedBitSet (w : Word) : Prop :=
  ∃ n, w.getLsbD n = true ∧ ((4 ≤ n ∧ n ≤ 7) ∨ (9 ≤ n ∧ n ≤ 63) ∨ (n = 8 ∧ w.toNat % 16 ≠ 2))

/-- The outcome of instructions run one after the other. -/
def runInstrs : List Instr → State → Host.Outcome State Fault Refusal
  | [], s => .next s
  | i :: rest, s =>
    match exec i s with
    | .next t => runInstrs rest t
    | .fault r => .fault r
    | .refused r => .refused r

/-- The lines of G (R78) as ADD, XOR and ROTR operations, in order. -/
def gLines (a b c d : Fin 16) (x y : VSrc) : List Instr :=
  [.add (.v a) (.v a) (.v b), .add (.v a) (.v a) x,
   .xor (.v d) (.v d) (.v a), .rotr (.v d) (.v d) .r32,
   .add (.v c) (.v c) (.v d),
   .xor (.v b) (.v b) (.v c), .rotr (.v b) (.v b) .r24,
   .add (.v a) (.v a) (.v b), .add (.v a) (.v a) y,
   .xor (.v d) (.v d) (.v a), .rotr (.v d) (.v d) .r16,
   .add (.v c) (.v c) (.v d),
   .xor (.v b) (.v b) (.v c), .rotr (.v b) (.v b) .r63]

/-- The register groups (a, b, c, d) of the four calls of the column step (R80). -/
def columnStep : List (Fin 16 × Fin 16 × Fin 16 × Fin 16) := [(0, 4, 8, 12), (1, 5, 9, 13), (2, 6, 10, 14), (3, 7, 11, 15)]

/-- The register groups (a, b, c, d) of the four calls of the diagonal step (R81). -/
def diagonalStep : List (Fin 16 × Fin 16 × Fin 16 × Fin 16) := [(0, 5, 10, 15), (1, 6, 11, 12), (2, 7, 8, 13), (3, 4, 9, 14)]

/-- The call of G on a register group with the message words x and y (R78). -/
def mixCall (q : Fin 16 × Fin 16 × Fin 16 × Fin 16) (x y : VSrc) : Instr := .g q.1 q.2.1 q.2.2.1 q.2.2.2 x y

/-- The lines of ROUND(r) (R97) as SCHED and G operations, in order. -/
def roundLines (r : Fin 12) : List Instr :=
  [.sched r 0, .g 0 4 8 12 .schedX .schedY, .sched r 1, .g 1 5 9 13 .schedX .schedY,
   .sched r 2, .g 2 6 10 14 .schedX .schedY, .sched r 3, .g 3 7 11 15 .schedX .schedY,
   .sched r 4, .g 0 5 10 15 .schedX .schedY, .sched r 5, .g 1 6 11 12 .schedX .schedY,
   .sched r 6, .g 2 7 8 13 .schedX .schedY, .sched r 7, .g 3 4 9 14 .schedX .schedY]

/-- The lines of the compression function (R99): VINIT, the 12 rounds, FEED. -/
def compressLines (t : Word) (f : Bool) : List Instr :=
  [.vinit t f, .round 0, .round 1, .round 2, .round 3, .round 4, .round 5, .round 6, .round 7, .round 8,
   .round 9, .round 10, .round 11, .feed]

/-- The blocks `ns` of a message of `len` words by hand (R117): M from BUILD(i), T0 = T(i), then COMPRESS with
F(i). -/
def runBlocks (len : Nat) : List Nat → State → Host.Outcome State Fault Refusal
  | [], s => .next s
  | n :: rest, s =>
    match exec (.build n) s with
    | .next t =>
      match exec (.compress (finalFlag len n)) { t with t0 := BitVec.ofNat 64 (byteOffset len n) } with
      | .next u => runBlocks len rest u
      | .fault r => .fault r
      | .refused r => .refused r
    | .fault r => .fault r
    | .refused r => .refused r

/-- The message word indices (x, y) of each call of each round, as R91 lists them. -/
def fullSchedule : Vector (Vector (Fin 16 × Fin 16) 8) 12 :=
  #v[#v[(0, 1), (2, 3), (4, 5), (6, 7), (8, 9), (10, 11), (12, 13), (14, 15)],
     #v[(14, 10), (4, 8), (9, 15), (13, 6), (1, 12), (0, 2), (11, 7), (5, 3)],
     #v[(11, 8), (12, 0), (5, 2), (15, 13), (10, 14), (3, 6), (7, 1), (9, 4)],
     #v[(7, 9), (3, 1), (13, 12), (11, 14), (2, 6), (5, 10), (4, 0), (15, 8)],
     #v[(9, 0), (5, 7), (2, 4), (10, 15), (14, 1), (11, 12), (6, 8), (3, 13)],
     #v[(2, 12), (6, 10), (0, 11), (8, 3), (4, 13), (7, 5), (15, 14), (1, 9)],
     #v[(12, 5), (1, 15), (14, 13), (4, 10), (0, 7), (6, 3), (9, 2), (8, 11)],
     #v[(13, 11), (7, 14), (12, 1), (3, 9), (5, 0), (15, 4), (8, 6), (2, 10)],
     #v[(6, 15), (14, 9), (11, 3), (0, 8), (12, 2), (13, 7), (1, 4), (10, 5)],
     #v[(10, 2), (8, 4), (7, 6), (1, 5), (15, 11), (9, 14), (3, 12), (13, 0)],
     #v[(0, 1), (2, 3), (4, 5), (6, 7), (8, 9), (10, 11), (12, 13), (14, 15)],
     #v[(14, 10), (4, 8), (9, 15), (13, 6), (1, 12), (0, 2), (11, 7), (5, 3)]]

/-- Two states of one configuration that hold the same in lane j and in the broadcast operands (R16): H, V, M and
SCHED's output in lane j, lane j's message words, LEN and T0. -/
structure AgreeOnLane (j : Nat) (s u : State) : Prop where
  cfg : s.cfg = u.cfg
  h : ∀ k : Fin 8, laneOf s.h[k] j = laneOf u.h[k] j
  v : ∀ k : Fin 16, laneOf s.v[k] j = laneOf u.v[k] j
  m : ∀ k : Fin 16, laneOf s.m[k] j = laneOf u.m[k] j
  schedX : laneOf s.schedX j = laneOf u.schedX j
  schedY : laneOf s.schedY j = laneOf u.schedY j
  msg : ∀ k, s.readMsg j k = u.readMsg j k
  len : s.len = u.len
  t0 : s.t0 = u.t0

end Sys2Proof.Machine
end

