-- ==== Sys2Proof/Certificates/Slice0/Obligations.lean ====
section
/-! DEFINITION. The statements for the provers.

A statement that answers `.next { s with … }` says the frame too: every field of the state that it does not name keeps
its value, every register, flag and message-memory cell among them. The statements are about every configuration,
every schedule and every state that meets their hypotheses. -/

open Sys2Proof Sys2Proof.Machine

/-! ### The command word -/

/-- The decoder and the encoder agree in both directions on all of the 2^64 words (R64 to R67): a word decodes to an
instruction exactly when it is that instruction's word, and exactly the host commands have one. -/
def Obligations.DecodeReadsExactlyTheEncodedWords : Prop :=
  (∀ (i : Instr) (w : Word), (decode w).toInstr? = some i ↔ encode i = some w) ∧
    ∀ i : Instr, (encode i).isSome = i.isHostCommand

/-- The encoding examples of R71. -/
def Obligations.EncodingExamplesDecode : Prop :=
  decode 0x0000000000000000 = .nop ∧ decode 0x0000000000000001 = .init ∧
    decode 0x0000000000000002 = .compress false ∧ decode 0x0000000000000102 = .compress true ∧
    decode 0x0000000000000003 = .hash ∧ decode 0x0000000000000101 = .reservedBits ∧
    decode 0x0000000000000012 = .reservedBits ∧ decode 0x8000000000000002 = .reservedBits ∧
    decode 0x0000000000000007 = .badOpcode ∧ decode 0xFFFFFFFFFFFFFFFF = .badOpcode ∧
    decode 0x0000000000000010 = .reservedBits

/-- The decode function of R65, case by case, on every word. -/
def Obligations.DecodeClassifiesEveryWord : Prop :=
  ∀ w : Word,
    (decode w = .badOpcode ↔ 4 ≤ w.toNat % 16) ∧
    (decode w = .reservedBits ↔ w.toNat % 16 < 4 ∧ ReservedBitSet w) ∧
    (decode w = .nop ↔ w.toNat = 0) ∧ (decode w = .init ↔ w.toNat = 1) ∧
    (decode w = .compress false ↔ w.toNat = 2) ∧ (decode w = .compress true ↔ w.toNat = 258) ∧
    (decode w = .hash ↔ w.toNat = 3)

/-! ### Issue, and how an issued command runs -/

/-- The issue procedure (R130), from the bits of the word written to CMD: the first check that applies wins, a rejected
command changes nothing but ERR (R124), an accepted one clears ERR and, but for NOP, is pending. -/
def Obligations.IssueChecksInOrder : Prop :=
  ∀ (s : State) (w : Word) (rest : List Event),
    s.Running → s.schedule = .busWrite 0x10 8 w :: rest →
    (s.busy = true → step s = .next { s with schedule := rest, err := .busyCmd }) ∧
    (s.busy = false → 4 ≤ w.toNat % 16 → step s = .next { s with schedule := rest, err := .badOpcode }) ∧
    (s.busy = false → w.toNat % 16 < 4 → ReservedBitSet w →
      step s = .next { s with schedule := rest, err := .reservedBits }) ∧
    (s.busy = false → w.toNat = 3 → s.cfg.msgWords < s.len.toNat →
      step s = .next { s with schedule := rest, err := .lenRange }) ∧
    (s.busy = false → w.toNat = 0 → step s = .next { s with schedule := rest, err := .noError }) ∧
    (s.busy = false → w.toNat = 1 →
      step s = .next { s with schedule := rest, err := .noError, pend := some .init, busy := true }) ∧
    (s.busy = false → w.toNat = 2 →
      step s = .next { s with schedule := rest, err := .noError, pend := some (.compress false), busy := true }) ∧
    (s.busy = false → w.toNat = 258 →
      step s = .next { s with schedule := rest, err := .noError, pend := some (.compress true), busy := true }) ∧
    (s.busy = false → w.toNat = 3 → s.len.toNat ≤ s.cfg.msgWords →
      step s = .next { s with schedule := rest, err := .noError, pend := some .hash, busy := true })

/-- A step runs the decoded instruction: a command word written while idle, accepted, and the engine's turn after it.
NOP runs at its issue; every other command runs in the engine's turn, from the state that its issue left. -/
def Obligations.WrittenCommandWordRunsItsInstruction : Prop :=
  ∀ (s : State) (w : Word) (i : Instr) (rest : List Event),
    s.Running → s.Idle → s.schedule = .busWrite 0x10 8 w :: .engineTurn :: rest →
    (decode w).toInstr? = some i → i.wellFormed = true → (i = .hash → s.len.toNat ≤ s.cfg.msgWords) →
    (i = .nop → step s = exec i { s with schedule := .engineTurn :: rest }) ∧
    (i ≠ .nop → ∃ p : Pending, p.toInstr = i ∧
      step s = .next { s with schedule := .engineTurn :: rest, err := .noError, pend := some p, busy := true } ∧
      step { s with schedule := .engineTurn :: rest, err := .noError, pend := some p, busy := true } =
        exec i { s with schedule := rest, err := .noError, pend := some p, busy := true })

/-- The engine's step exists exactly when PEND ≠ none, and performs PEND's operation in one transition (R30, R58). With
nothing scheduled the engine takes its turn, and an idle block stays as it is (the model's schedule,
notes/assumptions/4.md). -/
def Obligations.EngineTurnRunsThePendingInstruction : Prop :=
  ∀ (s : State) (rest : List Event), s.Running →
    (∀ p, s.pend = some p → s.schedule = .engineTurn :: rest → step s = exec p.toInstr { s with schedule := rest }) ∧
    (∀ p, s.pend = some p → s.schedule = [] → step s = exec p.toInstr s) ∧
    (s.pend = none → s.schedule = .engineTurn :: rest → step s = .next { s with schedule := rest }) ∧
    (s.pend = none → s.schedule = [] → step s = .next s)

/-! ### Host commands -/

/-- NOP (R109): written while idle it clears ERR and does nothing else; written while busy it is BUSY_CMD; with any bit
above 3:0 set it is RESERVED_BITS. -/
def Obligations.NopOnlyClearsErr : Prop :=
  (∀ s : State, exec .nop s = .next { s with err := .noError }) ∧
  ∀ (s : State) (w : Word) (rest : List Event), s.Running → s.schedule = .busWrite 0x10 8 w :: rest →
    (s.busy = false → w.toNat = 0 → step s = .next { s with schedule := rest, err := .noError }) ∧
    (s.busy = true → w.toNat = 0 → step s = .next { s with schedule := rest, err := .busyCmd }) ∧
    (s.busy = false → w.toNat % 16 = 0 → w.toNat ≠ 0 →
      step s = .next { s with schedule := rest, err := .reservedBits })

/-- INIT (R108). Its completion: the resulting H in every lane, BCOUNT, FINAL, PEND and BUSY; all else stays. Two INITs
leave the same state as one. Its issue: pending, busy, and ERR 0. -/
def Obligations.InitResult : Prop :=
  (∀ s : State, exec .init s = .next { s with
    h := #v[splat s.cfg.lanes 0x6A09E667F2BDC928, splat s.cfg.lanes 0xBB67AE8584CAA73B,
            splat s.cfg.lanes 0x3C6EF372FE94F82B, splat s.cfg.lanes 0xA54FF53A5F1D36F1,
            splat s.cfg.lanes 0x510E527FADE682D1, splat s.cfg.lanes 0x9B05688C2B3E6C1F,
            splat s.cfg.lanes 0x1F83D9ABFB41BD6B, splat s.cfg.lanes 0x5BE0CD19137E2179]
    bcount := 0, isFinal := false, pend := none, busy := false }) ∧
  (∀ s : State, runInstrs [.init, .init] s = runInstrs [.init] s) ∧
  ∀ (s : State) (w : Word) (rest : List Event),
    s.Running → s.Idle → s.schedule = .busWrite 0x10 8 w :: rest → w.toNat = 1 →
    step s = .next { s with schedule := rest, err := .noError, pend := some .init, busy := true }

/-- COMPRESS (R96, R99, R100). Its completion: VINIT(T0, F), ROUND(0) to ROUND(11) and FEED give the new V and H; BCOUNT
counts mod 2^64; FINAL is F; the command ends. All else stays: M, T0, LEN, MSG, BTOTAL, ERR. Its issue: F is latched,
pending, busy, and ERR 0. That V is kept after the command, as it stands after ROUND(11), is the model's choice
(notes/assumptions/11.md): the spec calls V dead then (R19, R104). -/
def Obligations.CompressIsVinitTwelveRoundsFeed : Prop :=
  (∀ (s : State) (f : Bool), ∃ u : State,
    runInstrs (compressLines s.t0 f) s = .next u ∧
    exec (.compress f) s = .next { s with
      h := u.h, v := u.v, bcount := BitVec.ofNat 64 (s.bcount.toNat + 1), isFinal := f, pend := none,
      busy := false }) ∧
  ∀ (s : State) (w : Word) (f : Bool) (rest : List Event),
    s.Running → s.Idle → s.schedule = .busWrite 0x10 8 w :: rest → w.toNat = (if f then 258 else 2) →
    step s = .next { s with schedule := rest, err := .noError, pend := some (.compress f), busy := true }

/-- HASH by hand (R117): over a written message HASH is INIT, then for each block BUILD(i), T0 = T(i) and COMPRESS with
F(i); the two end in the same state but for BTOTAL, which HASH sets to B(L). That V is a part of that
state is the model's choice (notes/assumptions/11.md). -/
def Obligations.HashIsInitThenCompressOfEachBlock : Prop :=
  ∀ s : State, s.MessageWritten →
    ∃ t u : State, exec .init s = .next t ∧
      runBlocks s.len.toNat (List.range (blockCount s.len.toNat)) t = .next u ∧
      exec .hash s = .next { u with btotal := BitVec.ofNat 64 (blockCount s.len.toNat) }

/-- The state after a HASH that completes (R115): FINAL, BCOUNT, BTOTAL, T0 and M as stated, LEN, MSG and ERR as
before; and nothing but H, V, M, T0, BCOUNT, BTOTAL, FINAL, PEND and BUSY has changed. -/
def Obligations.HashLeavesCountersAndLastBlock : Prop :=
  ∀ s : State, s.MessageWritten →
    ∃ (h : HFile) (v : VFile) (m : MFile), exec .hash s = .next { s with
        h := h, v := v, m := m, isFinal := true, t0 := BitVec.ofNat 64 (8 * s.len.toNat)
        bcount := BitVec.ofNat 64 (blockCount s.len.toNat), btotal := BitVec.ofNat 64 (blockCount s.len.toNat)
        pend := none, busy := false } ∧
      ∀ (k : Fin 16) (j : Nat), j < s.cfg.lanes →
        laneOf m[k] j = (s.laneMessage j).getD (16 * (blockCount s.len.toNat - 1) + k.val) 0

/-- HASH over an unwritten cell in range (R114, R133): the model fault names the smallest k, then the smallest j, and
the step changes nothing else: no H, M, T0 or counter (R119). -/
def Obligations.HashOverUnwrittenCellFaultsFirst : Prop :=
  ∀ (s : State) (j k : Nat), s.faulted = none →
    j < s.cfg.lanes → k < s.len.toNat → s.readMsg j k = none →
    (∀ j' k', j' < s.cfg.lanes → k' < s.len.toNat → s.readMsg j' k' = none → k < k' ∨ (k = k' ∧ j ≤ j')) →
    exec .hash s = .next { s with faulted := some (.uninitMsg j k) }

/-- HASH's results are a function of LEN and MSG alone (R120), in one configuration. -/
def Obligations.HashDependsOnlyOnLenAndMsg : Prop :=
  ∀ s u : State, s.cfg = u.cfg → s.len = u.len → s.msg = u.msg → s.MessageWritten →
    ∃ s' u' : State, exec .hash s = .next s' ∧ exec .hash u = .next u' ∧
      s'.h = u'.h ∧ s'.m = u'.m ∧ s'.t0 = u'.t0 ∧ s'.bcount = u'.bcount ∧ s'.btotal = u'.btotal ∧
      s'.isFinal = u'.isFinal

/-- Scalar equivalence of HASH (R118): every lane ends with the scalar BLAKE2b-256 state of that lane's own words, and
where those are the little-endian words of a byte stream, the lane's digest is that stream's BLAKE2b-256. -/
def Obligations.HashLaneIsScalarBlake2b : Prop :=
  ∀ s : State, s.Shaped → s.MessageWritten →
    ∃ t : State, exec .hash s = .next t ∧
      ∀ j, j < s.cfg.lanes → laneH t.h j = scalarHash (s.laneMessage j) ∧
        ∀ bytes : List Byte, bytes.length = 8 * s.len.toNat → messageWords bytes = s.laneMessage j →
          t.digest j = blake2b256 bytes

/-- The compression is lane-wise (R93): lane j of the result is the scalar compression of lane j, with t and f
broadcast. -/
def Obligations.CompressLaneIsScalarCompression : Prop :=
  ∀ (s : State) (f : Bool), s.Shaped →
    ∃ t : State, exec (.compress f) s = .next t ∧
      ∀ j, j < s.cfg.lanes → laneH t.h j = scalarCompress (laneH s.h j) (lane16 s.m j) s.t0 f

/-! ### Internal operations -/

/-- ADD (R73): each lane of the result is the sum mod 2^64; only the destination word changes and no flag is set. That
the result goes to a destination named by the instruction is the model's choice (notes/assumptions/6.md). -/
def Obligations.AddIsModularInEveryLane : Prop :=
  ∀ (s : State) (d : VDst) (a b : VSrc), s.Shaped →
    ∃ x : VecWord, x.length = s.cfg.lanes ∧
      (∀ j, j < s.cfg.lanes →
        (laneOf x j).toNat = ((laneOf (s.readSrc a) j).toNat + (laneOf (s.readSrc b) j).toNat) % 2 ^ 64) ∧
      (∀ k, d = .v k → exec (.add d a b) s = .next { s with v := s.v.set k x }) ∧
      (∀ k, d = .h k → exec (.add d a b) s = .next { s with h := s.h.set k x })

/-- XOR (R74): each lane of the result is the bitwise exclusive or, bit by bit; only the destination word changes and no
flag is set. The destination is the model's choice (notes/assumptions/6.md). -/
def Obligations.XorIsBitwiseInEveryLane : Prop :=
  ∀ (s : State) (d : VDst) (a b : VSrc), s.Shaped →
    ∃ x : VecWord, x.length = s.cfg.lanes ∧
      (∀ j n, j < s.cfg.lanes →
        (laneOf x j).getLsbD n = ((laneOf (s.readSrc a) j).getLsbD n ^^ (laneOf (s.readSrc b) j).getLsbD n)) ∧
      (∀ k, d = .v k → exec (.xor d a b) s = .next { s with v := s.v.set k x }) ∧
      (∀ k, d = .h k → exec (.xor d a b) s = .next { s with h := s.h.set k x })

/-- ROTR (R75): bit i of each lane of the result is bit (i + n) mod 64 of the operand's lane; only the destination word
changes and no flag is set. The destination is the model's choice (notes/assumptions/6.md). -/
def Obligations.RotrMovesEveryBitInEveryLane : Prop :=
  ∀ (s : State) (d : VDst) (a : VSrc) (n : RotDist), s.Shaped →
    ∃ x : VecWord, x.length = s.cfg.lanes ∧
      (∀ j i, j < s.cfg.lanes → i < 64 →
        (laneOf x j).getLsbD i = (laneOf (s.readSrc a) j).getLsbD ((i + distance n) % 64)) ∧
      (∀ k, d = .v k → exec (.rotr d a n) s = .next { s with v := s.v.set k x }) ∧
      (∀ k, d = .h k → exec (.rotr d a n) s = .next { s with h := s.h.set k x })

/-- The rotation of R75 on one word, for each of the four distances: bit i of rotr(x, n) is bit (i + n) mod 64 of x, and
rotr(x, 63) is a rotation left by 1. -/
def Obligations.RotationTakesBitsModulo64 : Prop :=
  (distance .r32 = 32 ∧ distance .r24 = 24 ∧ distance .r16 = 16 ∧ distance .r63 = 63) ∧
  (∀ (x : Word) (n : RotDist) (i : Nat), i < 64 →
    (rotr x (distance n)).getLsbD i = x.getLsbD ((i + distance n) % 64)) ∧
  ∀ x : Word, rotr x 63 = (x <<< 1) ||| (x >>> 63)

/-- Broadcast (R76): a scalar operand holds the same value in every lane. -/
def Obligations.ScalarOperandIsBroadcast : Prop :=
  ∀ (s : State) (w : Word), (s.readSrc (.splat w)).length = s.cfg.lanes ∧
    ∀ j, j < s.cfg.lanes → laneOf (s.readSrc (.splat w)) j = w

/-- G is its eight lines (R78): for message operands, G and the ADD, XOR and ROTR operations of its lines, in order, end
in the same state. -/
def Obligations.GIsItsEightLines : Prop :=
  ∀ (s : State) (a b c d : Fin 16) (x y : VSrc), x.isMessage = true → y.isMessage = true →
    ∃ t : State, exec (.g a b c d x y) s = .next t ∧ runInstrs (gLines a b c d x y) s = .next t

/-- G is lane-wise and does not depend on N (R83): each lane's values are the scalar G of that lane's values, and
nothing but V[a], V[b], V[c] and V[d] changes (R77). The spec's G has message words x and y; that a G with any other
operands runs too, and reads them first, is the model's choice (notes/assumptions/14.md). -/
def Obligations.GLaneIsScalarG : Prop :=
  ∀ (s : State) (a b c d : Fin 16) (x y : VSrc), s.Shaped → distinctRegs a b c d = true →
    ∃ v : VFile, exec (.g a b c d x y) s = .next { s with v := v } ∧
      (∀ k : Fin 16, k ≠ a → k ≠ b → k ≠ c → k ≠ d → v[k] = s.v[k]) ∧
      ∀ j, j < s.cfg.lanes →
        lane16 v j = scalarMix a b c d (laneOf (s.readSrc x) j) (laneOf (s.readSrc y) j) (lane16 s.v j)

/-- The message schedule (R84, R86 to R91): the pair of message words of every call of every round is the one the spec
lists, the two are different words, and over a round every word of M is taken exactly once. -/
def Obligations.ScheduleIsTheListedOne : Prop :=
  (∀ (m : MFile) (r : Fin 12) (c : Fin 8),
    schedPair m r c = (m[fullSchedule[r][c].1], m[fullSchedule[r][c].2]) ∧
      schedIndexX r c = fullSchedule[r][c].1 ∧ schedIndexY r c = fullSchedule[r][c].2 ∧
      fullSchedule[r][c].1 ≠ fullSchedule[r][c].2) ∧
  ∀ (r : Fin 12) (k : Fin 16),
    ((List.finRange 8).flatMap fun c => [schedIndexX r c, schedIndexY r c]).count k = 1

/-- SCHED (R89, R91): the pair of message words of every call of every round; nothing else is written (R90). That the
pair stands in an output port is the model's choice (notes/assumptions/6.md). -/
def Obligations.SchedFollowsTheFullSchedule : Prop :=
  ∀ (s : State) (r : Fin 12) (c : Fin 8),
    exec (.sched r c) s = .next { s with schedX := s.m[fullSchedule[r][c].1], schedY := s.m[fullSchedule[r][c].2] }

/-- Every row of σ is a permutation of 0..15 (R85). -/
def Obligations.SigmaRowsArePermutations : Prop :=
  ∀ (r : Fin 10) (k : Fin 16), (sigma[r].toList.count k) = 1

/-- VINIT (R95). -/
def Obligations.VinitResult : Prop :=
  ∀ (s : State) (t : Word) (f : Bool), exec (.vinit t f) s = .next { s with
    v := #v[s.h[0], s.h[1], s.h[2], s.h[3], s.h[4], s.h[5], s.h[6], s.h[7],
            splat s.cfg.lanes 0x6A09E667F3BCC908, splat s.cfg.lanes 0xBB67AE8584CAA73B,
            splat s.cfg.lanes 0x3C6EF372FE94F82B, splat s.cfg.lanes 0xA54FF53A5F1D36F1,
            splat s.cfg.lanes (0x510E527FADE682D1 ^^^ t), splat s.cfg.lanes 0x9B05688C2B3E6C1F,
            splat s.cfg.lanes (if f then 0xE07C265404BE4294 else 0x1F83D9ABFB41BD6B),
            splat s.cfg.lanes 0x5BE0CD19137E2179] }

/-- ROUND (R97): its eight calls of G, each over the pair that SCHED gives, in order, end in the same state but for
SCHED's output port, which ROUND leaves alone (the port is the model's, notes/assumptions/6.md). -/
def Obligations.RoundIsEightScheduledG : Prop :=
  ∀ (s : State) (r : Fin 12), ∃ u : State, runInstrs (roundLines r) s = .next u ∧
    exec (.round r) s = .next { u with schedX := s.schedX, schedY := s.schedY }

/-- The four calls of one step touch disjoint registers (R82): two of them, on any message words, give the same state in
either order. -/
def Obligations.CallsOfAStepCommute : Prop :=
  ∀ (s : State) (p q : Fin 16 × Fin 16 × Fin 16 × Fin 16) (x y z w : VSrc),
    (p ∈ columnStep ∧ q ∈ columnStep) ∨ (p ∈ diagonalStep ∧ q ∈ diagonalStep) → p ≠ q →
    x.isMessage = true → y.isMessage = true → z.isMessage = true → w.isMessage = true →
    ∃ t : State, runInstrs [mixCall p x y, mixCall q z w] s = .next t ∧
      runInstrs [mixCall q z w, mixCall p x y] s = .next t

/-- FEED (R98): H[i] becomes H[i] ^ V[i] ^ V[i+8] in every lane, with the old H on the right; nothing else changes. -/
def Obligations.FeedResult : Prop :=
  ∀ s : State, s.Shaped → ∃ h : HFile, exec .feed s = .next { s with h := h } ∧
    ∀ (k : Fin 8) (j : Nat), j < s.cfg.lanes →
      laneOf h[k] j = laneOf s.h[k] j ^^^ laneOf s.v[k.val] j ^^^ laneOf (s.v[k.val + 8]'(by omega)) j

/-- BUILD (R113): message words below L, zeros past the end, in every word and lane of M; nothing else changes. The
cells it reads are written, as HASH has checked. -/
def Obligations.BuildPadsWithZeroWords : Prop :=
  ∀ (s : State) (n : Nat),
    (∀ j k, j < s.cfg.lanes → k < 16 → 16 * n + k < s.len.toNat → s.readMsg j (16 * n + k) ≠ none) →
    ∃ m : MFile, exec (.build n) s = .next { s with m := m } ∧
      ∀ (k : Fin 16) (j : Nat), j < s.cfg.lanes →
        (∀ w, 16 * n + k.val < s.len.toNat → s.readMsg j (16 * n + k.val) = some w → laneOf m[k] j = w) ∧
        (s.len.toNat ≤ 16 * n + k.val → laneOf m[k] j = 0)

/-- BUILD on its own over an unwritten cell takes the model fault UNINIT_MSG and changes nothing else: the model's
choice (notes/assumptions/7.md), since the spec runs BUILD only after HASH's check. -/
def Obligations.BuildOverUnwrittenCellFaults : Prop :=
  ∀ (s : State) (n j k : Nat), s.faulted = none →
    j < s.cfg.lanes → k < 16 → 16 * n + k < s.len.toNat → s.readMsg j (16 * n + k) = none →
    ∃ j' k', s.readMsg j' k' = none ∧ exec (.build n) s = .next { s with faulted := some (.uninitMsg j' k') }

/-- Lock-step lanes (R16): what an instruction leaves in lane j is a function of lane j's inputs and the broadcast
operands alone. -/
def Obligations.LanesDoNotInterfere : Prop :=
  ∀ (i : Instr) (j : Nat) (s u s' u' : State), j < s.cfg.lanes → s.Shaped → u.Shaped → AgreeOnLane j s u →
    exec i s = .next s' → exec i u = .next u' → s'.faulted = none → u'.faulted = none →
    AgreeOnLane j s' u'

/-- The block count, the byte offsets and the final flag of a message (R110 to R112). -/
def Obligations.BlockCountersOfAMessage : Prop :=
  ∀ len : Nat,
    blockCount 0 = 1 ∧ (len ≠ 0 → 16 * (blockCount len - 1) < len ∧ len ≤ 16 * blockCount len) ∧
    (∀ n, n + 1 < blockCount len → byteOffset len n = 128 * (n + 1)) ∧
    byteOffset len (blockCount len - 1) = 8 * len ∧
    (len ≤ 2 ^ 25 → ∀ n, byteOffset len n ≤ 2 ^ 28) ∧
    ∀ n, n < blockCount len → (finalFlag len n = true ↔ n = blockCount len - 1)

/-! ### The host bus -/

/-- The address map (R45 to R49): an aligned offset decodes to a location exactly when that location exists in the
configuration and has that offset; every other offset is unmapped. -/
def Obligations.AddressMapIsExact : Prop :=
  ∀ (c : Config) (off : Nat) (l : Loc), admitted c = true → off % 8 = 0 →
    (decodeOffset c off = some l ↔ l.mapped c ∧ l.offset = off)

/-- An access that is not admitted (R43) is a bus fault and has no other effect: its size is not 8, its offset is
misaligned, or no location of the configuration has that offset. -/
def Obligations.InadmissibleAccessIsABusFault : Prop :=
  ∀ (s : State) (off : Offset) (size : Nat) (w : Word) (rest : List Event), s.Running →
    size ≠ 8 ∨ off.toNat % 8 ≠ 0 ∨ (∀ l : Loc, l.mapped s.cfg → l.offset ≠ off.toNat) →
    (s.schedule = .busRead off size :: rest →
      step s = .next { s with schedule := rest, faulted := some (.busFault .read off size) }) ∧
    (s.schedule = .busWrite off size w :: rest →
      step s = .next { s with schedule := rest, faulted := some (.busFault .write off size) })

/-- An admitted read while idle (R50) returns the exact value and changes nothing of the block (R44). -/
def Obligations.IdleReadIsExact : Prop :=
  ∀ (s : State) (off : Offset) (rest : List Event), s.Running → s.Idle → s.schedule = .busRead off 8 :: rest →
    (off.toNat = 0x00 → step s = .next { s with schedule := rest, readData := some 0x4232425700000001 }) ∧
    (off.toNat = 0x08 → step s = .next { s with schedule := rest, readData := some (configValue s.cfg) }) ∧
    (off.toNat = 0x10 → step s = .next { s with schedule := rest, readData := some 0 }) ∧
    (off.toNat = 0x18 → step s = .next { s with schedule := rest, readData := some s.statusWord }) ∧
    (off.toNat = 0x20 → step s = .next { s with schedule := rest, readData := some s.len }) ∧
    (off.toNat = 0x28 → step s = .next { s with schedule := rest, readData := some s.t0 }) ∧
    (off.toNat = 0x30 → step s = .next { s with schedule := rest, readData := some s.bcount }) ∧
    (off.toNat = 0x38 → step s = .next { s with schedule := rest, readData := some s.btotal }) ∧
    (∀ (k : Fin 8) (j : Nat), j < s.cfg.lanes → off.toNat = 0x100 + 64 * k.val + 8 * j →
      step s = .next { s with schedule := rest, readData := some (laneOf s.h[k] j) }) ∧
    (∀ (k : Fin 16) (j : Nat), j < s.cfg.lanes → off.toNat = 0x400 + 64 * k.val + 8 * j →
      step s = .next { s with schedule := rest, readData := some (laneOf s.m[k] j) }) ∧
    (∀ (j k : Nat) (w : Word), j < s.cfg.lanes → k < s.cfg.msgWords →
      off.toNat = 0x80000000 + 64 * k + 8 * j → s.readMsg j k = some w →
      step s = .next { s with schedule := rest, readData := some w })

/-- An admitted read while busy (R50): T0, BCOUNT, BTOTAL, H and M answer a fresh draw, whatever it is; every other
location answers as while idle. The counter that makes a draw fresh is the model's (notes/assumptions/8.md). -/
def Obligations.BusyReadIsADraw : Prop :=
  ∀ (s : State) (off : Offset) (rest : List Event), s.Running → s.busy = true → s.schedule = .busRead off 8 :: rest →
    ((off.toNat = 0x28 ∨ off.toNat = 0x30 ∨ off.toNat = 0x38 ∨
        (∃ (k : Fin 8) (j : Nat), j < s.cfg.lanes ∧ off.toNat = 0x100 + 64 * k.val + 8 * j) ∨
        (∃ (k : Fin 16) (j : Nat), j < s.cfg.lanes ∧ off.toNat = 0x400 + 64 * k.val + 8 * j)) →
      step s = .next { s with
        schedule := rest, readData := some (Config.draw64 s.draws), draws := s.draws + 1 }) ∧
    (off.toNat = 0x00 → step s = .next { s with schedule := rest, readData := some 0x4232425700000001 }) ∧
    (off.toNat = 0x08 → step s = .next { s with schedule := rest, readData := some (configValue s.cfg) }) ∧
    (off.toNat = 0x10 → step s = .next { s with schedule := rest, readData := some 0 }) ∧
    (off.toNat = 0x18 → step s = .next { s with schedule := rest, readData := some s.statusWord }) ∧
    (off.toNat = 0x20 → step s = .next { s with schedule := rest, readData := some s.len }) ∧
    (∀ (j k : Nat) (w : Word), j < s.cfg.lanes → k < s.cfg.msgWords →
      off.toNat = 0x80000000 + 64 * k + 8 * j → s.readMsg j k = some w →
      step s = .next { s with schedule := rest, readData := some w })

/-- A host read of an unwritten message cell is UNINIT_READ (R51), idle or busy. -/
def Obligations.UnwrittenCellReadFaults : Prop :=
  ∀ (s : State) (off : Offset) (rest : List Event) (j k : Nat), s.Running → s.schedule = .busRead off 8 :: rest →
    j < s.cfg.lanes → k < s.cfg.msgWords → off.toNat = 0x80000000 + 64 * k + 8 * j → s.readMsg j k = none →
    step s = .next { s with schedule := rest, faulted := some (.uninitRead off) }

/-- A host write to ID, CONFIG, STATUS, BCOUNT, BTOTAL or any H location is a bus fault (R52), idle or busy. -/
def Obligations.ReadOnlyWriteIsABusFault : Prop :=
  ∀ (s : State) (off : Offset) (w : Word) (rest : List Event), s.Running → s.schedule = .busWrite off 8 w :: rest →
    (off.toNat = 0x00 ∨ off.toNat = 0x08 ∨ off.toNat = 0x18 ∨ off.toNat = 0x30 ∨ off.toNat = 0x38 ∨
      (∃ (k : Fin 8) (j : Nat), j < s.cfg.lanes ∧ off.toNat = 0x100 + 64 * k.val + 8 * j)) →
    step s = .next { s with schedule := rest, faulted := some (.busFault .write off 8) }

/-- A host write to LEN, T0, M or MSG while idle (R54) stores the word in that location, leaves every other location as
it was, and does not change STATUS. -/
def Obligations.IdleWriteStores : Prop :=
  ∀ (s : State) (off : Offset) (w : Word) (rest : List Event), s.Running → s.Idle → s.Shaped →
    s.schedule = .busWrite off 8 w :: rest →
    (off.toNat = 0x20 → step s = .next { s with schedule := rest, len := w }) ∧
    (off.toNat = 0x28 → step s = .next { s with schedule := rest, t0 := w }) ∧
    (∀ (k : Fin 16) (j : Nat), j < s.cfg.lanes → off.toNat = 0x400 + 64 * k.val + 8 * j →
      ∃ m : MFile, step s = .next { s with schedule := rest, m := m } ∧
        ∀ (k' : Fin 16) (j' : Nat), laneOf m[k'] j' = if k' = k ∧ j' = j then w else laneOf s.m[k'] j') ∧
    (∀ (j k : Nat), j < s.cfg.lanes → k < s.cfg.msgWords → off.toNat = 0x80000000 + 64 * k + 8 * j →
      ∃ msg : Memory, step s = .next { s with schedule := rest, msg := msg } ∧
        ∀ a, Memory.read msg a = if a = msgOffset j k then some w else Memory.read s.msg a)

/-- A host write to LEN, T0, M or MSG while busy (R55) is dropped: only ERR changes, to BUSY_WRITE. -/
def Obligations.BusyWriteIsDropped : Prop :=
  ∀ (s : State) (off : Offset) (w : Word) (rest : List Event), s.Running → s.busy = true →
    s.schedule = .busWrite off 8 w :: rest →
    (off.toNat = 0x20 ∨ off.toNat = 0x28 ∨
      (∃ (k : Fin 16) (j : Nat), j < s.cfg.lanes ∧ off.toNat = 0x400 + 64 * k.val + 8 * j) ∨
      (∃ j k : Nat, j < s.cfg.lanes ∧ k < s.cfg.msgWords ∧ off.toNat = 0x80000000 + 64 * k + 8 * j)) →
    step s = .next { s with schedule := rest, err := .busyWrite }

/-- STATUS as the host reads it (R25): BUSY in bit 0, FINAL in bit 1, ERR in bits 7:4, every other bit 0. -/
def Obligations.StatusFields : Prop :=
  ∀ s : State, s.statusWord.getLsbD 0 = s.busy ∧ s.statusWord.getLsbD 1 = s.isFinal ∧
    s.statusWord.getLsbD 2 = false ∧ s.statusWord.getLsbD 3 = false ∧
    s.statusWord.extractLsb' 4 4 = errBits s.err ∧ (∀ n, 8 ≤ n → s.statusWord.getLsbD n = false) ∧
    (errBits .noError = 0 ∧ errBits .busyCmd = 1 ∧ errBits .badOpcode = 2 ∧ errBits .reservedBits = 3 ∧
      errBits .lenRange = 4 ∧ errBits .busyWrite = 5)

/-- CONFIG (R23): its fields, for every admitted configuration. -/
def Obligations.ConfigFields : Prop :=
  ∀ c : Config, admitted c = true →
    ((configValue c).extractLsb' 0 8).toNat = c.lanes ∧ ((configValue c).extractLsb' 8 8).toNat = 12 ∧
    ((configValue c).extractLsb' 16 8).toNat = 4 ∧ ((configValue c).extractLsb' 24 8).toNat = 0 ∧
    ((configValue c).extractLsb' 32 32).toNat = c.msgWords

/-- The byte order of messages and digests (R40, R41): byte t of a word is its bits 8t+7 to 8t, both ways. -/
def Obligations.ByteOrderIsLittleEndian : Prop :=
  (∀ b0 b1 b2 b3 b4 b5 b6 b7 : Byte,
    (leWord [b0, b1, b2, b3, b4, b5, b6, b7]).toNat =
      b0.toNat + b1.toNat * 2 ^ 8 + b2.toNat * 2 ^ 16 + b3.toNat * 2 ^ 24 + b4.toNat * 2 ^ 32 +
        b5.toNat * 2 ^ 40 + b6.toNat * 2 ^ 48 + b7.toNat * 2 ^ 56) ∧
  (∀ (w : Word) (t : Nat), t < 8 → (wordByte w t).toNat = w.toNat / 2 ^ (8 * t) % 256) ∧
  ∀ w : Word, leWord (wordBytes w) = w

/-- The digest of lane j (R41, R116) is what four host reads while idle return, at 0x100 + 8j, 0x140 + 8j, 0x180 + 8j
and 0x1C0 + 8j. -/
def Obligations.DigestReadout : Prop :=
  ∀ (s : State) (i : Fin 4) (j : Nat) (off : Offset) (rest : List Event),
    s.Running → s.Idle → j < s.cfg.lanes → off.toNat = 0x100 + 64 * i.val + 8 * j →
    s.schedule = .busRead off 8 :: rest →
    ∃ w : Word, step s = .next { s with schedule := rest, readData := some w } ∧
      (s.digestWords j)[i.val]? = some w ∧
      (s.digest j).length = 32 ∧ ∀ t : Fin 8, (s.digest j)[8 * i.val + t.val]? = some (wordByte w t.val)

/-- The assembler's symbolic locations (R70, R45): it translates exactly those that exist, to their offsets. -/
def Obligations.AssemblerTranslatesMappedLocations : Prop :=
  ∀ c : Config, admitted c = true →
    [AsmLoc.id, .config, .cmd, .status, .len, .t0, .bcount, .btotal].map (assembleLoc c) =
      [some 0x00, some 0x08, some 0x10, some 0x18, some 0x20, some 0x28, some 0x30, some 0x38] ∧
    (∀ w j, (assembleLoc c (.h w j)).map BitVec.toNat = if w < 8 ∧ j < c.lanes then some (0x100 + 64 * w + 8 * j) else none) ∧
    (∀ w j, (assembleLoc c (.m w j)).map BitVec.toNat = if w < 16 ∧ j < c.lanes then some (0x400 + 64 * w + 8 * j) else none) ∧
    (∀ w j, (assembleLoc c (.msg w j)).map BitVec.toNat =
      if w < c.msgWords ∧ j < c.lanes then some (0x80000000 + 64 * w + 8 * j) else none)

/-! ### Reset, faults and the configuration -/

/-- Reset (R146 to R148), idle, busy or faulted: every register, window and cell at its reset value; a pending command
leaves no effect; the configuration and FAULTED stay. That V is 0 and that the model's own fields stay is the model's
choice (notes/assumptions/2.md, 4.md). -/
def Obligations.ResetValues : Prop :=
  ∀ (s : State) (rest : List Event), admitted s.cfg = true → s.schedule = .resetInput :: rest →
    ∃ t : State, step s = .next t ∧
      t.cfg = s.cfg ∧ t.faulted = s.faulted ∧ t.schedule = rest ∧ t.readData = s.readData ∧ t.draws = s.draws ∧
      (∀ (k : Fin 8) (j : Nat), laneOf t.h[k] j = 0) ∧ (∀ (k : Fin 16) (j : Nat), laneOf t.m[k] j = 0) ∧
      (∀ (k : Fin 16) (j : Nat), laneOf t.v[k] j = 0) ∧ t.Shaped ∧
      (∀ j k, t.readMsg j k = none) ∧ t.statusWord = 0 ∧ t.err = .noError ∧ t.len = 0 ∧ t.t0 = 0 ∧
      t.bcount = 0 ∧ t.btotal = 0 ∧ t.pend = none

/-- A refused configuration (R123): the model gives no machine for it. -/
def Obligations.BadConfigurationIsRefused : Prop :=
  ∀ s : State,
    ¬ (s.cfg.lanes = 1 ∨ s.cfg.lanes = 2 ∨ s.cfg.lanes = 4 ∨ s.cfg.lanes = 8) ∨
      s.cfg.msgWords < 1 ∨ 2 ^ 25 < s.cfg.msgWords →
    step s = .refused (.badConfig s.cfg.lanes s.cfg.msgWords)

/-- The faulted state (R134, R147): no step, reset included, clears or changes FAULTED, and every agent but reset has
stopped. That they have stopped is the model's choice among those R134 allows (notes/assumptions/9.md). -/
def Obligations.FaultedIsNeverCleared : Prop :=
  ∀ (s : State) (f : Fault), admitted s.cfg = true → s.faulted = some f →
    (∀ s', step s = .next s' → s'.faulted = some f) ∧
    ((∀ rest, s.schedule ≠ .resetInput :: rest) → step s = .fault f)

/-- No step changes the configuration (R5, R34, R147). -/
def Obligations.ConfigurationIsFixed : Prop :=
  ∀ s s' : State, step s = .next s' → s'.cfg = s.cfg

/-! ### Whole-machine rules -/

/-- The state right after power-on meets the invariant, in every admitted configuration, and `State.reset` with it. -/
def Obligations.ResetMeetsTheInvariant : Prop :=
  (∀ c : Config, admitted c = true → (State.resetWith c).Inv) ∧ State.reset.Inv

/-- Every step keeps the invariant: N lanes in every vector word, the message memory canonical and inside its window,
BUSY = 1 exactly when PEND ≠ none (R30), a pending HASH's LEN in range, the configuration admitted. -/
def Obligations.StepKeepsTheInvariant : Prop :=
  ∀ s s' : State, s.Inv → step s = .next s' → s'.Inv

/-- Every instruction, host command or internal operation, keeps the invariant (R17, R21, R30): the internal operations
too, which a step runs only inside a command. -/
def Obligations.InstructionsKeepTheInvariant : Prop :=
  ∀ (i : Instr) (s s' : State), s.Inv → exec i s = .next s' → s'.Inv

/-- The engine never writes MSG or LEN (R56), whatever instruction it performs; nor does it touch the configuration. -/
def Obligations.EngineNeverWritesMsgOrLen : Prop :=
  ∀ (i : Instr) (s s' : State), exec i s = .next s' →
    s'.msg = s.msg ∧ s'.len = s.len ∧ s'.cfg = s.cfg ∧
    (∀ j k, s'.readMsg j k = s.readMsg j k)

/-- The host cannot write H, V, BCOUNT, BTOTAL or FINAL (R18, R28, R29, R35): no read and no write of the host, of any
size at any offset, idle or busy, changes them. -/
def Obligations.HostAccessNeverChangesEngineState : Prop :=
  ∀ (s s' : State) (e : Event) (rest : List Event), s.schedule = e :: rest →
    e ≠ .engineTurn → e ≠ .resetInput → step s = .next s' →
    s'.h = s.h ∧ s'.v = s.v ∧ s'.bcount = s.bcount ∧ s'.btotal = s.btotal ∧ s'.isFinal = s.isFinal

/-- A read has no side effect on the block (R44): only the schedule, the value returned, the draw counter and FAULTED
can differ after it, and a second read that returns no draw returns the same value. -/
def Obligations.ReadHasNoSideEffect : Prop :=
  (∀ (s s' : State) (off : Offset) (size : Nat) (rest : List Event),
    s.schedule = .busRead off size :: rest → step s = .next s' →
    s' = { s with schedule := s'.schedule, readData := s'.readData, draws := s'.draws, faulted := s'.faulted }) ∧
  ∀ (s s' : State) (off : Offset) (size : Nat) (rest : List Event),
    s.schedule = .busRead off size :: .busRead off size :: rest → step s = .next s' → s'.faulted = none →
    s'.draws = s.draws → ∃ s'', step s' = .next s'' ∧ s''.readData = s'.readData

/-- What can change STATUS.ERR (R126): nothing but a write to CMD, a dropped operand write while busy, and reset. No
read, no engine completion and no admitted write while idle changes it. -/
def Obligations.ErrIsKeptOtherwise : Prop :=
  ∀ s s' : State, step s = .next s' → s'.err ≠ s.err →
    (∃ rest, s.schedule = .resetInput :: rest ∧ s'.err = .noError) ∨
    (∃ w rest, s.schedule = .busWrite 0x10 8 w :: rest) ∨
    (∃ off w rest, s.schedule = .busWrite off 8 w :: rest ∧ s.busy = true ∧ s'.err = .busyWrite)
end

