-- ==== Sys2Proof/Laws/State.lean ====
section
/-! SUPPORT. One lemma for each field under each named update of the state, so that no later proof unfolds a record
update. -/

namespace Sys2Proof.Machine

/-! ### `State.setErr` -/

@[simp] theorem State.setErr_cfg (s : State) (e : ErrCode) : (s.setErr e).cfg = s.cfg := rfl
@[simp] theorem State.setErr_h (s : State) (e : ErrCode) : (s.setErr e).h = s.h := rfl
@[simp] theorem State.setErr_v (s : State) (e : ErrCode) : (s.setErr e).v = s.v := rfl
@[simp] theorem State.setErr_m (s : State) (e : ErrCode) : (s.setErr e).m = s.m := rfl
@[simp] theorem State.setErr_schedX (s : State) (e : ErrCode) : (s.setErr e).schedX = s.schedX := rfl
@[simp] theorem State.setErr_schedY (s : State) (e : ErrCode) : (s.setErr e).schedY = s.schedY := rfl
@[simp] theorem State.setErr_msg (s : State) (e : ErrCode) : (s.setErr e).msg = s.msg := rfl
@[simp] theorem State.setErr_busy (s : State) (e : ErrCode) : (s.setErr e).busy = s.busy := rfl
@[simp] theorem State.setErr_isFinal (s : State) (e : ErrCode) : (s.setErr e).isFinal = s.isFinal := rfl
@[simp] theorem State.setErr_err (s : State) (e : ErrCode) : (s.setErr e).err = e := rfl
@[simp] theorem State.setErr_len (s : State) (e : ErrCode) : (s.setErr e).len = s.len := rfl
@[simp] theorem State.setErr_t0 (s : State) (e : ErrCode) : (s.setErr e).t0 = s.t0 := rfl
@[simp] theorem State.setErr_bcount (s : State) (e : ErrCode) : (s.setErr e).bcount = s.bcount := rfl
@[simp] theorem State.setErr_btotal (s : State) (e : ErrCode) : (s.setErr e).btotal = s.btotal := rfl
@[simp] theorem State.setErr_pend (s : State) (e : ErrCode) : (s.setErr e).pend = s.pend := rfl
@[simp] theorem State.setErr_faulted (s : State) (e : ErrCode) : (s.setErr e).faulted = s.faulted := rfl
@[simp] theorem State.setErr_schedule (s : State) (e : ErrCode) : (s.setErr e).schedule = s.schedule := rfl
@[simp] theorem State.setErr_readData (s : State) (e : ErrCode) : (s.setErr e).readData = s.readData := rfl
@[simp] theorem State.setErr_draws (s : State) (e : ErrCode) : (s.setErr e).draws = s.draws := rfl

/-! ### `State.setV` -/

@[simp] theorem State.setV_cfg (s : State) (k : Fin 16) (x : VecWord) : (s.setV k x).cfg = s.cfg := rfl
@[simp] theorem State.setV_h (s : State) (k : Fin 16) (x : VecWord) : (s.setV k x).h = s.h := rfl
@[simp] theorem State.setV_v (s : State) (k : Fin 16) (x : VecWord) : (s.setV k x).v = s.v.set k x := rfl
@[simp] theorem State.setV_m (s : State) (k : Fin 16) (x : VecWord) : (s.setV k x).m = s.m := rfl
@[simp] theorem State.setV_schedX (s : State) (k : Fin 16) (x : VecWord) : (s.setV k x).schedX = s.schedX := rfl
@[simp] theorem State.setV_schedY (s : State) (k : Fin 16) (x : VecWord) : (s.setV k x).schedY = s.schedY := rfl
@[simp] theorem State.setV_msg (s : State) (k : Fin 16) (x : VecWord) : (s.setV k x).msg = s.msg := rfl
@[simp] theorem State.setV_busy (s : State) (k : Fin 16) (x : VecWord) : (s.setV k x).busy = s.busy := rfl
@[simp] theorem State.setV_isFinal (s : State) (k : Fin 16) (x : VecWord) : (s.setV k x).isFinal = s.isFinal := rfl
@[simp] theorem State.setV_err (s : State) (k : Fin 16) (x : VecWord) : (s.setV k x).err = s.err := rfl
@[simp] theorem State.setV_len (s : State) (k : Fin 16) (x : VecWord) : (s.setV k x).len = s.len := rfl
@[simp] theorem State.setV_t0 (s : State) (k : Fin 16) (x : VecWord) : (s.setV k x).t0 = s.t0 := rfl
@[simp] theorem State.setV_bcount (s : State) (k : Fin 16) (x : VecWord) : (s.setV k x).bcount = s.bcount := rfl
@[simp] theorem State.setV_btotal (s : State) (k : Fin 16) (x : VecWord) : (s.setV k x).btotal = s.btotal := rfl
@[simp] theorem State.setV_pend (s : State) (k : Fin 16) (x : VecWord) : (s.setV k x).pend = s.pend := rfl
@[simp] theorem State.setV_faulted (s : State) (k : Fin 16) (x : VecWord) : (s.setV k x).faulted = s.faulted := rfl
@[simp] theorem State.setV_schedule (s : State) (k : Fin 16) (x : VecWord) : (s.setV k x).schedule = s.schedule := rfl
@[simp] theorem State.setV_readData (s : State) (k : Fin 16) (x : VecWord) : (s.setV k x).readData = s.readData := rfl
@[simp] theorem State.setV_draws (s : State) (k : Fin 16) (x : VecWord) : (s.setV k x).draws = s.draws := rfl

/-! ### `State.setH` -/

@[simp] theorem State.setH_cfg (s : State) (k : Fin 8) (x : VecWord) : (s.setH k x).cfg = s.cfg := rfl
@[simp] theorem State.setH_h (s : State) (k : Fin 8) (x : VecWord) : (s.setH k x).h = s.h.set k x := rfl
@[simp] theorem State.setH_v (s : State) (k : Fin 8) (x : VecWord) : (s.setH k x).v = s.v := rfl
@[simp] theorem State.setH_m (s : State) (k : Fin 8) (x : VecWord) : (s.setH k x).m = s.m := rfl
@[simp] theorem State.setH_schedX (s : State) (k : Fin 8) (x : VecWord) : (s.setH k x).schedX = s.schedX := rfl
@[simp] theorem State.setH_schedY (s : State) (k : Fin 8) (x : VecWord) : (s.setH k x).schedY = s.schedY := rfl
@[simp] theorem State.setH_msg (s : State) (k : Fin 8) (x : VecWord) : (s.setH k x).msg = s.msg := rfl
@[simp] theorem State.setH_busy (s : State) (k : Fin 8) (x : VecWord) : (s.setH k x).busy = s.busy := rfl
@[simp] theorem State.setH_isFinal (s : State) (k : Fin 8) (x : VecWord) : (s.setH k x).isFinal = s.isFinal := rfl
@[simp] theorem State.setH_err (s : State) (k : Fin 8) (x : VecWord) : (s.setH k x).err = s.err := rfl
@[simp] theorem State.setH_len (s : State) (k : Fin 8) (x : VecWord) : (s.setH k x).len = s.len := rfl
@[simp] theorem State.setH_t0 (s : State) (k : Fin 8) (x : VecWord) : (s.setH k x).t0 = s.t0 := rfl
@[simp] theorem State.setH_bcount (s : State) (k : Fin 8) (x : VecWord) : (s.setH k x).bcount = s.bcount := rfl
@[simp] theorem State.setH_btotal (s : State) (k : Fin 8) (x : VecWord) : (s.setH k x).btotal = s.btotal := rfl
@[simp] theorem State.setH_pend (s : State) (k : Fin 8) (x : VecWord) : (s.setH k x).pend = s.pend := rfl
@[simp] theorem State.setH_faulted (s : State) (k : Fin 8) (x : VecWord) : (s.setH k x).faulted = s.faulted := rfl
@[simp] theorem State.setH_schedule (s : State) (k : Fin 8) (x : VecWord) : (s.setH k x).schedule = s.schedule := rfl
@[simp] theorem State.setH_readData (s : State) (k : Fin 8) (x : VecWord) : (s.setH k x).readData = s.readData := rfl
@[simp] theorem State.setH_draws (s : State) (k : Fin 8) (x : VecWord) : (s.setH k x).draws = s.draws := rfl

/-! ### `State.setM` -/

@[simp] theorem State.setM_cfg (s : State) (k : Fin 16) (x : VecWord) : (s.setM k x).cfg = s.cfg := rfl
@[simp] theorem State.setM_h (s : State) (k : Fin 16) (x : VecWord) : (s.setM k x).h = s.h := rfl
@[simp] theorem State.setM_v (s : State) (k : Fin 16) (x : VecWord) : (s.setM k x).v = s.v := rfl
@[simp] theorem State.setM_m (s : State) (k : Fin 16) (x : VecWord) : (s.setM k x).m = s.m.set k x := rfl
@[simp] theorem State.setM_schedX (s : State) (k : Fin 16) (x : VecWord) : (s.setM k x).schedX = s.schedX := rfl
@[simp] theorem State.setM_schedY (s : State) (k : Fin 16) (x : VecWord) : (s.setM k x).schedY = s.schedY := rfl
@[simp] theorem State.setM_msg (s : State) (k : Fin 16) (x : VecWord) : (s.setM k x).msg = s.msg := rfl
@[simp] theorem State.setM_busy (s : State) (k : Fin 16) (x : VecWord) : (s.setM k x).busy = s.busy := rfl
@[simp] theorem State.setM_isFinal (s : State) (k : Fin 16) (x : VecWord) : (s.setM k x).isFinal = s.isFinal := rfl
@[simp] theorem State.setM_err (s : State) (k : Fin 16) (x : VecWord) : (s.setM k x).err = s.err := rfl
@[simp] theorem State.setM_len (s : State) (k : Fin 16) (x : VecWord) : (s.setM k x).len = s.len := rfl
@[simp] theorem State.setM_t0 (s : State) (k : Fin 16) (x : VecWord) : (s.setM k x).t0 = s.t0 := rfl
@[simp] theorem State.setM_bcount (s : State) (k : Fin 16) (x : VecWord) : (s.setM k x).bcount = s.bcount := rfl
@[simp] theorem State.setM_btotal (s : State) (k : Fin 16) (x : VecWord) : (s.setM k x).btotal = s.btotal := rfl
@[simp] theorem State.setM_pend (s : State) (k : Fin 16) (x : VecWord) : (s.setM k x).pend = s.pend := rfl
@[simp] theorem State.setM_faulted (s : State) (k : Fin 16) (x : VecWord) : (s.setM k x).faulted = s.faulted := rfl
@[simp] theorem State.setM_schedule (s : State) (k : Fin 16) (x : VecWord) : (s.setM k x).schedule = s.schedule := rfl
@[simp] theorem State.setM_readData (s : State) (k : Fin 16) (x : VecWord) : (s.setM k x).readData = s.readData := rfl
@[simp] theorem State.setM_draws (s : State) (k : Fin 16) (x : VecWord) : (s.setM k x).draws = s.draws := rfl

/-! ### `State.writeMsg` -/

@[simp] theorem State.writeMsg_cfg (s : State) (j k : Nat) (w : Word) : (s.writeMsg j k w).cfg = s.cfg := rfl
@[simp] theorem State.writeMsg_h (s : State) (j k : Nat) (w : Word) : (s.writeMsg j k w).h = s.h := rfl
@[simp] theorem State.writeMsg_v (s : State) (j k : Nat) (w : Word) : (s.writeMsg j k w).v = s.v := rfl
@[simp] theorem State.writeMsg_m (s : State) (j k : Nat) (w : Word) : (s.writeMsg j k w).m = s.m := rfl
@[simp] theorem State.writeMsg_schedX (s : State) (j k : Nat) (w : Word) : (s.writeMsg j k w).schedX = s.schedX := rfl
@[simp] theorem State.writeMsg_schedY (s : State) (j k : Nat) (w : Word) : (s.writeMsg j k w).schedY = s.schedY := rfl
@[simp] theorem State.writeMsg_msg (s : State) (j k : Nat) (w : Word) :
    (s.writeMsg j k w).msg = Memory.write s.msg (msgOffset j k) w := rfl
@[simp] theorem State.writeMsg_busy (s : State) (j k : Nat) (w : Word) : (s.writeMsg j k w).busy = s.busy := rfl
@[simp] theorem State.writeMsg_isFinal (s : State) (j k : Nat) (w : Word) :
    (s.writeMsg j k w).isFinal = s.isFinal := rfl
@[simp] theorem State.writeMsg_err (s : State) (j k : Nat) (w : Word) : (s.writeMsg j k w).err = s.err := rfl
@[simp] theorem State.writeMsg_len (s : State) (j k : Nat) (w : Word) : (s.writeMsg j k w).len = s.len := rfl
@[simp] theorem State.writeMsg_t0 (s : State) (j k : Nat) (w : Word) : (s.writeMsg j k w).t0 = s.t0 := rfl
@[simp] theorem State.writeMsg_bcount (s : State) (j k : Nat) (w : Word) : (s.writeMsg j k w).bcount = s.bcount := rfl
@[simp] theorem State.writeMsg_btotal (s : State) (j k : Nat) (w : Word) : (s.writeMsg j k w).btotal = s.btotal := rfl
@[simp] theorem State.writeMsg_pend (s : State) (j k : Nat) (w : Word) : (s.writeMsg j k w).pend = s.pend := rfl
@[simp] theorem State.writeMsg_faulted (s : State) (j k : Nat) (w : Word) :
    (s.writeMsg j k w).faulted = s.faulted := rfl
@[simp] theorem State.writeMsg_schedule (s : State) (j k : Nat) (w : Word) :
    (s.writeMsg j k w).schedule = s.schedule := rfl
@[simp] theorem State.writeMsg_readData (s : State) (j k : Nat) (w : Word) :
    (s.writeMsg j k w).readData = s.readData := rfl
@[simp] theorem State.writeMsg_draws (s : State) (j k : Nat) (w : Word) : (s.writeMsg j k w).draws = s.draws := rfl

/-! ### `State.raise` -/

@[simp] theorem State.raise_cfg (s : State) (f : Fault) : (s.raise f).cfg = s.cfg := rfl
@[simp] theorem State.raise_h (s : State) (f : Fault) : (s.raise f).h = s.h := rfl
@[simp] theorem State.raise_v (s : State) (f : Fault) : (s.raise f).v = s.v := rfl
@[simp] theorem State.raise_m (s : State) (f : Fault) : (s.raise f).m = s.m := rfl
@[simp] theorem State.raise_schedX (s : State) (f : Fault) : (s.raise f).schedX = s.schedX := rfl
@[simp] theorem State.raise_schedY (s : State) (f : Fault) : (s.raise f).schedY = s.schedY := rfl
@[simp] theorem State.raise_msg (s : State) (f : Fault) : (s.raise f).msg = s.msg := rfl
@[simp] theorem State.raise_busy (s : State) (f : Fault) : (s.raise f).busy = s.busy := rfl
@[simp] theorem State.raise_isFinal (s : State) (f : Fault) : (s.raise f).isFinal = s.isFinal := rfl
@[simp] theorem State.raise_err (s : State) (f : Fault) : (s.raise f).err = s.err := rfl
@[simp] theorem State.raise_len (s : State) (f : Fault) : (s.raise f).len = s.len := rfl
@[simp] theorem State.raise_t0 (s : State) (f : Fault) : (s.raise f).t0 = s.t0 := rfl
@[simp] theorem State.raise_bcount (s : State) (f : Fault) : (s.raise f).bcount = s.bcount := rfl
@[simp] theorem State.raise_btotal (s : State) (f : Fault) : (s.raise f).btotal = s.btotal := rfl
@[simp] theorem State.raise_pend (s : State) (f : Fault) : (s.raise f).pend = s.pend := rfl
@[simp] theorem State.raise_faulted (s : State) (f : Fault) : (s.raise f).faulted = s.faulted.or (some f) := rfl
@[simp] theorem State.raise_schedule (s : State) (f : Fault) : (s.raise f).schedule = s.schedule := rfl
@[simp] theorem State.raise_readData (s : State) (f : Fault) : (s.raise f).readData = s.readData := rfl
@[simp] theorem State.raise_draws (s : State) (f : Fault) : (s.raise f).draws = s.draws := rfl

/-! ### `State.returns` -/

@[simp] theorem State.returns_cfg (s : State) (w : Word) : (s.returns w).cfg = s.cfg := rfl
@[simp] theorem State.returns_h (s : State) (w : Word) : (s.returns w).h = s.h := rfl
@[simp] theorem State.returns_v (s : State) (w : Word) : (s.returns w).v = s.v := rfl
@[simp] theorem State.returns_m (s : State) (w : Word) : (s.returns w).m = s.m := rfl
@[simp] theorem State.returns_schedX (s : State) (w : Word) : (s.returns w).schedX = s.schedX := rfl
@[simp] theorem State.returns_schedY (s : State) (w : Word) : (s.returns w).schedY = s.schedY := rfl
@[simp] theorem State.returns_msg (s : State) (w : Word) : (s.returns w).msg = s.msg := rfl
@[simp] theorem State.returns_busy (s : State) (w : Word) : (s.returns w).busy = s.busy := rfl
@[simp] theorem State.returns_isFinal (s : State) (w : Word) : (s.returns w).isFinal = s.isFinal := rfl
@[simp] theorem State.returns_err (s : State) (w : Word) : (s.returns w).err = s.err := rfl
@[simp] theorem State.returns_len (s : State) (w : Word) : (s.returns w).len = s.len := rfl
@[simp] theorem State.returns_t0 (s : State) (w : Word) : (s.returns w).t0 = s.t0 := rfl
@[simp] theorem State.returns_bcount (s : State) (w : Word) : (s.returns w).bcount = s.bcount := rfl
@[simp] theorem State.returns_btotal (s : State) (w : Word) : (s.returns w).btotal = s.btotal := rfl
@[simp] theorem State.returns_pend (s : State) (w : Word) : (s.returns w).pend = s.pend := rfl
@[simp] theorem State.returns_faulted (s : State) (w : Word) : (s.returns w).faulted = s.faulted := rfl
@[simp] theorem State.returns_schedule (s : State) (w : Word) : (s.returns w).schedule = s.schedule := rfl
@[simp] theorem State.returns_readData (s : State) (w : Word) : (s.returns w).readData = some w := rfl
@[simp] theorem State.returns_draws (s : State) (w : Word) : (s.returns w).draws = s.draws := rfl

/-! ### `State.returnsDraw` -/

@[simp] theorem State.returnsDraw_cfg (s : State) : s.returnsDraw.cfg = s.cfg := rfl
@[simp] theorem State.returnsDraw_h (s : State) : s.returnsDraw.h = s.h := rfl
@[simp] theorem State.returnsDraw_v (s : State) : s.returnsDraw.v = s.v := rfl
@[simp] theorem State.returnsDraw_m (s : State) : s.returnsDraw.m = s.m := rfl
@[simp] theorem State.returnsDraw_schedX (s : State) : s.returnsDraw.schedX = s.schedX := rfl
@[simp] theorem State.returnsDraw_schedY (s : State) : s.returnsDraw.schedY = s.schedY := rfl
@[simp] theorem State.returnsDraw_msg (s : State) : s.returnsDraw.msg = s.msg := rfl
@[simp] theorem State.returnsDraw_busy (s : State) : s.returnsDraw.busy = s.busy := rfl
@[simp] theorem State.returnsDraw_isFinal (s : State) : s.returnsDraw.isFinal = s.isFinal := rfl
@[simp] theorem State.returnsDraw_err (s : State) : s.returnsDraw.err = s.err := rfl
@[simp] theorem State.returnsDraw_len (s : State) : s.returnsDraw.len = s.len := rfl
@[simp] theorem State.returnsDraw_t0 (s : State) : s.returnsDraw.t0 = s.t0 := rfl
@[simp] theorem State.returnsDraw_bcount (s : State) : s.returnsDraw.bcount = s.bcount := rfl
@[simp] theorem State.returnsDraw_btotal (s : State) : s.returnsDraw.btotal = s.btotal := rfl
@[simp] theorem State.returnsDraw_pend (s : State) : s.returnsDraw.pend = s.pend := rfl
@[simp] theorem State.returnsDraw_faulted (s : State) : s.returnsDraw.faulted = s.faulted := rfl
@[simp] theorem State.returnsDraw_schedule (s : State) : s.returnsDraw.schedule = s.schedule := rfl
@[simp] theorem State.returnsDraw_readData (s : State) : s.returnsDraw.readData = some (Config.draw64 s.draws) := rfl
@[simp] theorem State.returnsDraw_draws (s : State) : s.returnsDraw.draws = s.draws + 1 := rfl

/-! ### `State.accept` -/

@[simp] theorem State.accept_cfg (s : State) (p : Pending) : (s.accept p).cfg = s.cfg := rfl
@[simp] theorem State.accept_h (s : State) (p : Pending) : (s.accept p).h = s.h := rfl
@[simp] theorem State.accept_v (s : State) (p : Pending) : (s.accept p).v = s.v := rfl
@[simp] theorem State.accept_m (s : State) (p : Pending) : (s.accept p).m = s.m := rfl
@[simp] theorem State.accept_schedX (s : State) (p : Pending) : (s.accept p).schedX = s.schedX := rfl
@[simp] theorem State.accept_schedY (s : State) (p : Pending) : (s.accept p).schedY = s.schedY := rfl
@[simp] theorem State.accept_msg (s : State) (p : Pending) : (s.accept p).msg = s.msg := rfl
@[simp] theorem State.accept_busy (s : State) (p : Pending) : (s.accept p).busy = true := rfl
@[simp] theorem State.accept_isFinal (s : State) (p : Pending) : (s.accept p).isFinal = s.isFinal := rfl
@[simp] theorem State.accept_err (s : State) (p : Pending) : (s.accept p).err = .noError := rfl
@[simp] theorem State.accept_len (s : State) (p : Pending) : (s.accept p).len = s.len := rfl
@[simp] theorem State.accept_t0 (s : State) (p : Pending) : (s.accept p).t0 = s.t0 := rfl
@[simp] theorem State.accept_bcount (s : State) (p : Pending) : (s.accept p).bcount = s.bcount := rfl
@[simp] theorem State.accept_btotal (s : State) (p : Pending) : (s.accept p).btotal = s.btotal := rfl
@[simp] theorem State.accept_pend (s : State) (p : Pending) : (s.accept p).pend = some p := rfl
@[simp] theorem State.accept_faulted (s : State) (p : Pending) : (s.accept p).faulted = s.faulted := rfl
@[simp] theorem State.accept_schedule (s : State) (p : Pending) : (s.accept p).schedule = s.schedule := rfl
@[simp] theorem State.accept_readData (s : State) (p : Pending) : (s.accept p).readData = s.readData := rfl
@[simp] theorem State.accept_draws (s : State) (p : Pending) : (s.accept p).draws = s.draws := rfl

/-! ### `State.complete` -/

@[simp] theorem State.complete_cfg (s : State) : s.complete.cfg = s.cfg := rfl
@[simp] theorem State.complete_h (s : State) : s.complete.h = s.h := rfl
@[simp] theorem State.complete_v (s : State) : s.complete.v = s.v := rfl
@[simp] theorem State.complete_m (s : State) : s.complete.m = s.m := rfl
@[simp] theorem State.complete_schedX (s : State) : s.complete.schedX = s.schedX := rfl
@[simp] theorem State.complete_schedY (s : State) : s.complete.schedY = s.schedY := rfl
@[simp] theorem State.complete_msg (s : State) : s.complete.msg = s.msg := rfl
@[simp] theorem State.complete_busy (s : State) : s.complete.busy = false := rfl
@[simp] theorem State.complete_isFinal (s : State) : s.complete.isFinal = s.isFinal := rfl
@[simp] theorem State.complete_err (s : State) : s.complete.err = s.err := rfl
@[simp] theorem State.complete_len (s : State) : s.complete.len = s.len := rfl
@[simp] theorem State.complete_t0 (s : State) : s.complete.t0 = s.t0 := rfl
@[simp] theorem State.complete_bcount (s : State) : s.complete.bcount = s.bcount := rfl
@[simp] theorem State.complete_btotal (s : State) : s.complete.btotal = s.btotal := rfl
@[simp] theorem State.complete_pend (s : State) : s.complete.pend = none := rfl
@[simp] theorem State.complete_faulted (s : State) : s.complete.faulted = s.faulted := rfl
@[simp] theorem State.complete_schedule (s : State) : s.complete.schedule = s.schedule := rfl
@[simp] theorem State.complete_readData (s : State) : s.complete.readData = s.readData := rfl
@[simp] theorem State.complete_draws (s : State) : s.complete.draws = s.draws := rfl

/-! ### `State.pop` -/

@[simp] theorem State.pop_cfg (s : State) : s.pop.cfg = s.cfg := rfl
@[simp] theorem State.pop_h (s : State) : s.pop.h = s.h := rfl
@[simp] theorem State.pop_v (s : State) : s.pop.v = s.v := rfl
@[simp] theorem State.pop_m (s : State) : s.pop.m = s.m := rfl
@[simp] theorem State.pop_schedX (s : State) : s.pop.schedX = s.schedX := rfl
@[simp] theorem State.pop_schedY (s : State) : s.pop.schedY = s.schedY := rfl
@[simp] theorem State.pop_msg (s : State) : s.pop.msg = s.msg := rfl
@[simp] theorem State.pop_busy (s : State) : s.pop.busy = s.busy := rfl
@[simp] theorem State.pop_isFinal (s : State) : s.pop.isFinal = s.isFinal := rfl
@[simp] theorem State.pop_err (s : State) : s.pop.err = s.err := rfl
@[simp] theorem State.pop_len (s : State) : s.pop.len = s.len := rfl
@[simp] theorem State.pop_t0 (s : State) : s.pop.t0 = s.t0 := rfl
@[simp] theorem State.pop_bcount (s : State) : s.pop.bcount = s.bcount := rfl
@[simp] theorem State.pop_btotal (s : State) : s.pop.btotal = s.btotal := rfl
@[simp] theorem State.pop_pend (s : State) : s.pop.pend = s.pend := rfl
@[simp] theorem State.pop_faulted (s : State) : s.pop.faulted = s.faulted := rfl
@[simp] theorem State.pop_schedule (s : State) : s.pop.schedule = s.schedule.tail := rfl
@[simp] theorem State.pop_readData (s : State) : s.pop.readData = s.readData := rfl
@[simp] theorem State.pop_draws (s : State) : s.pop.draws = s.draws := rfl

/-! ### `State.initStep` -/

@[simp] theorem State.initStep_cfg (s : State) : s.initStep.cfg = s.cfg := rfl
@[simp] theorem State.initStep_h (s : State) : s.initStep.h = initFile s.cfg.lanes := rfl
@[simp] theorem State.initStep_v (s : State) : s.initStep.v = s.v := rfl
@[simp] theorem State.initStep_m (s : State) : s.initStep.m = s.m := rfl
@[simp] theorem State.initStep_schedX (s : State) : s.initStep.schedX = s.schedX := rfl
@[simp] theorem State.initStep_schedY (s : State) : s.initStep.schedY = s.schedY := rfl
@[simp] theorem State.initStep_msg (s : State) : s.initStep.msg = s.msg := rfl
@[simp] theorem State.initStep_busy (s : State) : s.initStep.busy = s.busy := rfl
@[simp] theorem State.initStep_isFinal (s : State) : s.initStep.isFinal = false := rfl
@[simp] theorem State.initStep_err (s : State) : s.initStep.err = s.err := rfl
@[simp] theorem State.initStep_len (s : State) : s.initStep.len = s.len := rfl
@[simp] theorem State.initStep_t0 (s : State) : s.initStep.t0 = s.t0 := rfl
@[simp] theorem State.initStep_bcount (s : State) : s.initStep.bcount = 0 := rfl
@[simp] theorem State.initStep_btotal (s : State) : s.initStep.btotal = s.btotal := rfl
@[simp] theorem State.initStep_pend (s : State) : s.initStep.pend = s.pend := rfl
@[simp] theorem State.initStep_faulted (s : State) : s.initStep.faulted = s.faulted := rfl
@[simp] theorem State.initStep_schedule (s : State) : s.initStep.schedule = s.schedule := rfl
@[simp] theorem State.initStep_readData (s : State) : s.initStep.readData = s.readData := rfl
@[simp] theorem State.initStep_draws (s : State) : s.initStep.draws = s.draws := rfl

/-! ### `State.compression` -/

@[simp] theorem State.compression_cfg (s : State) (f : Bool) : (s.compression f).cfg = s.cfg := rfl
@[simp] theorem State.compression_h (s : State) (f : Bool) :
    (s.compression f).h = compressedH s.cfg.lanes s.h s.m s.t0 f := rfl
@[simp] theorem State.compression_v (s : State) (f : Bool) :
    (s.compression f).v = compressedV s.cfg.lanes s.h s.m s.t0 f := rfl
@[simp] theorem State.compression_m (s : State) (f : Bool) : (s.compression f).m = s.m := rfl
@[simp] theorem State.compression_schedX (s : State) (f : Bool) : (s.compression f).schedX = s.schedX := rfl
@[simp] theorem State.compression_schedY (s : State) (f : Bool) : (s.compression f).schedY = s.schedY := rfl
@[simp] theorem State.compression_msg (s : State) (f : Bool) : (s.compression f).msg = s.msg := rfl
@[simp] theorem State.compression_busy (s : State) (f : Bool) : (s.compression f).busy = s.busy := rfl
@[simp] theorem State.compression_isFinal (s : State) (f : Bool) : (s.compression f).isFinal = f := rfl
@[simp] theorem State.compression_err (s : State) (f : Bool) : (s.compression f).err = s.err := rfl
@[simp] theorem State.compression_len (s : State) (f : Bool) : (s.compression f).len = s.len := rfl
@[simp] theorem State.compression_t0 (s : State) (f : Bool) : (s.compression f).t0 = s.t0 := rfl
@[simp] theorem State.compression_bcount (s : State) (f : Bool) : (s.compression f).bcount = s.bcount + 1 := rfl
@[simp] theorem State.compression_btotal (s : State) (f : Bool) : (s.compression f).btotal = s.btotal := rfl
@[simp] theorem State.compression_pend (s : State) (f : Bool) : (s.compression f).pend = s.pend := rfl
@[simp] theorem State.compression_faulted (s : State) (f : Bool) : (s.compression f).faulted = s.faulted := rfl
@[simp] theorem State.compression_schedule (s : State) (f : Bool) : (s.compression f).schedule = s.schedule := rfl
@[simp] theorem State.compression_readData (s : State) (f : Bool) : (s.compression f).readData = s.readData := rfl
@[simp] theorem State.compression_draws (s : State) (f : Bool) : (s.compression f).draws = s.draws := rfl

/-! ### `State.buildBlock` -/

@[simp] theorem State.buildBlock_cfg (s : State) (len n : Nat) : (s.buildBlock len n).cfg = s.cfg := rfl
@[simp] theorem State.buildBlock_h (s : State) (len n : Nat) : (s.buildBlock len n).h = s.h := rfl
@[simp] theorem State.buildBlock_v (s : State) (len n : Nat) : (s.buildBlock len n).v = s.v := rfl
@[simp] theorem State.buildBlock_m (s : State) (len n : Nat) :
    (s.buildBlock len n).m = tabulate 16 fun k => (List.range s.cfg.lanes).map fun j => s.blockWord len n k.val j := rfl
@[simp] theorem State.buildBlock_schedX (s : State) (len n : Nat) : (s.buildBlock len n).schedX = s.schedX := rfl
@[simp] theorem State.buildBlock_schedY (s : State) (len n : Nat) : (s.buildBlock len n).schedY = s.schedY := rfl
@[simp] theorem State.buildBlock_msg (s : State) (len n : Nat) : (s.buildBlock len n).msg = s.msg := rfl
@[simp] theorem State.buildBlock_busy (s : State) (len n : Nat) : (s.buildBlock len n).busy = s.busy := rfl
@[simp] theorem State.buildBlock_isFinal (s : State) (len n : Nat) : (s.buildBlock len n).isFinal = s.isFinal := rfl
@[simp] theorem State.buildBlock_err (s : State) (len n : Nat) : (s.buildBlock len n).err = s.err := rfl
@[simp] theorem State.buildBlock_len (s : State) (len n : Nat) : (s.buildBlock len n).len = s.len := rfl
@[simp] theorem State.buildBlock_t0 (s : State) (len n : Nat) : (s.buildBlock len n).t0 = s.t0 := rfl
@[simp] theorem State.buildBlock_bcount (s : State) (len n : Nat) : (s.buildBlock len n).bcount = s.bcount := rfl
@[simp] theorem State.buildBlock_btotal (s : State) (len n : Nat) : (s.buildBlock len n).btotal = s.btotal := rfl
@[simp] theorem State.buildBlock_pend (s : State) (len n : Nat) : (s.buildBlock len n).pend = s.pend := rfl
@[simp] theorem State.buildBlock_faulted (s : State) (len n : Nat) : (s.buildBlock len n).faulted = s.faulted := rfl
@[simp] theorem State.buildBlock_schedule (s : State) (len n : Nat) :
    (s.buildBlock len n).schedule = s.schedule := rfl
@[simp] theorem State.buildBlock_readData (s : State) (len n : Nat) :
    (s.buildBlock len n).readData = s.readData := rfl
@[simp] theorem State.buildBlock_draws (s : State) (len n : Nat) : (s.buildBlock len n).draws = s.draws := rfl

end Sys2Proof.Machine
end

