-- ==== Sys2Proof/Laws/Step.lean ====
section
/-! SUPPORT. What a step can do, said once: the step of a running machine by its first event, and the inversion of a
step that answers a next state. -/

namespace Sys2Proof.Machine

theorem runNext_of_event {s : State} {e : Event} {rest : List Event} (hf : s.faulted = none)
    (h : s.schedule = e :: rest) : runNext s = runEvent { s with schedule := rest } e := by
  unfold runNext State.pop
  rw [hf, h]
  rfl

theorem runNext_of_nil {s : State} (hf : s.faulted = none) (h : s.schedule = []) : runNext s = engineStep s := by
  unfold runNext
  rw [hf, h]

theorem runNext_of_faulted {s : State} {f : Fault} {e : Event} {rest : List Event} (hf : s.faulted = some f)
    (h : s.schedule = e :: rest) : runNext s = runFaulted { s with schedule := rest } f e := by
  unfold runNext State.pop
  rw [hf, h]
  rfl

theorem runNext_of_faulted_nil {s : State} {f : Fault} (hf : s.faulted = some f) (h : s.schedule = []) :
    runNext s = .fault f := by
  unfold runNext
  rw [hf, h]

theorem step_of_admitted {s : State} (h : admitted s.cfg = true) : step s = runNext s := by simp [step, h]

/-- The step of a running machine is its first event. -/
theorem State.Running.step_event {s : State} (hs : s.Running) {e : Event} {rest : List Event}
    (h : s.schedule = e :: rest) : step s = runEvent { s with schedule := rest } e := by
  rw [step_of_admitted hs.config, runNext_of_event hs.unfaulted h]

/-- With nothing scheduled, the step of a running machine is the engine's turn. -/
theorem State.Running.step_nil {s : State} (hs : s.Running) (h : s.schedule = []) : step s = engineStep s := by
  rw [step_of_admitted hs.config, runNext_of_nil hs.unfaulted h]

theorem State.Running.step_read {s : State} (hs : s.Running) {off : Offset} {size : Nat} {rest : List Event}
    (h : s.schedule = .busRead off size :: rest) :
    step s = .next (State.busRead { s with schedule := rest } off size) := hs.step_event h

theorem State.Running.step_write {s : State} (hs : s.Running) {off : Offset} {size : Nat} {w : Word}
    {rest : List Event} (h : s.schedule = .busWrite off size w :: rest) :
    step s = .next (State.busWrite { s with schedule := rest } off size w) := hs.step_event h

theorem State.Running.step_engine {s : State} (hs : s.Running) {rest : List Event}
    (h : s.schedule = .engineTurn :: rest) : step s = engineStep { s with schedule := rest } := hs.step_event h

theorem State.Running.step_reset {s : State} (hs : s.Running) {rest : List Event}
    (h : s.schedule = .resetInput :: rest) : step s = .next (State.resetBlock { s with schedule := rest }) :=
  hs.step_event h

theorem eq_nil_or_cons {α : Type} (l : List α) : l = [] ∨ ∃ e rest, l = e :: rest := by
  cases l with
  | nil => exact .inl rfl
  | cons e rest => exact .inr ⟨e, rest, rfl⟩

/-- All that a step which answers a next state can be: the engine's turn with nothing scheduled, the first event of a
machine that is not faulted, or reset of a faulted one. -/
theorem step_next {s s' : State} (h : step s = .next s') :
    admitted s.cfg = true ∧
      ((s.faulted = none ∧ s.schedule = [] ∧ engineStep s = .next s') ∨
        (∃ e rest, s.faulted = none ∧ s.schedule = e :: rest ∧ runEvent { s with schedule := rest } e = .next s') ∨
        ∃ f rest, s.faulted = some f ∧ s.schedule = .resetInput :: rest ∧
          s' = State.resetBlock { s with schedule := rest }) := by
  by_cases hc : admitted s.cfg = true
  · refine ⟨hc, ?_⟩
    rw [step_of_admitted hc] at h
    obtain hf | ⟨f, hf⟩ : s.faulted = none ∨ ∃ f, s.faulted = some f := Option.eq_none_or_eq_some _
    · obtain hs | ⟨e, rest, hs⟩ : s.schedule = [] ∨ ∃ e rest, s.schedule = e :: rest := eq_nil_or_cons _
      · exact .inl ⟨hf, hs, runNext_of_nil hf hs ▸ h⟩
      · exact .inr (.inl ⟨e, rest, hf, hs, runNext_of_event hf hs ▸ h⟩)
    · obtain hs | ⟨e, rest, hs⟩ : s.schedule = [] ∨ ∃ e rest, s.schedule = e :: rest := eq_nil_or_cons _
      · rw [runNext_of_faulted_nil hf hs] at h; cases h
      · rw [runNext_of_faulted hf hs] at h
        cases e with
        | resetInput => exact .inr (.inr ⟨f, rest, hf, hs, by simpa [runFaulted] using h.symm⟩)
        | busRead off size => cases h
        | busWrite off size w => cases h
        | engineTurn => cases h
  · simp [step, hc] at h

/-- The engine's turn: nothing while idle, else the pending command. -/
theorem engineStep_next {s s' : State} (h : engineStep s = .next s') :
    (s.pend = none ∧ s' = s) ∨ ∃ p, s.pend = some p ∧ exec p.toInstr s = .next s' := by
  unfold engineStep at h
  cases hp : s.pend with
  | none => rw [hp] at h; exact .inl ⟨rfl, by simpa using h.symm⟩
  | some p => rw [hp] at h; exact .inr ⟨p, rfl, h⟩

/-- All that a host read can do: return a value, return a draw, or take a model fault. -/
theorem busRead_cases (s : State) (off : Offset) (size : Nat) :
    (∃ w, s.busRead off size = s.returns w) ∨ s.busRead off size = s.returnsDraw ∨
      ∃ f, s.busRead off size = s.raise f := by
  have exact_or_draw (w : Word) : (∃ x, s.returnsUnlessBusy w = s.returns x) ∨ s.returnsUnlessBusy w = s.returnsDraw := by
    unfold State.returnsUnlessBusy
    split
    · exact .inr rfl
    · exact .inl ⟨w, rfl⟩
  have widen {t : State} (h : (∃ x, t = s.returns x) ∨ t = s.returnsDraw) :
      (∃ w, t = s.returns w) ∨ t = s.returnsDraw ∨ ∃ f, t = s.raise f := h.imp_right .inl
  unfold State.busRead
  split
  · rename_i l _
    cases l with
    | id => exact .inl ⟨_, rfl⟩
    | config => exact .inl ⟨_, rfl⟩
    | cmd => exact .inl ⟨_, rfl⟩
    | status => exact .inl ⟨_, rfl⟩
    | len => exact .inl ⟨_, rfl⟩
    | t0 => exact widen (exact_or_draw _)
    | bcount => exact widen (exact_or_draw _)
    | btotal => exact widen (exact_or_draw _)
    | h k j => exact widen (exact_or_draw _)
    | m k j => exact widen (exact_or_draw _)
    | msg j k =>
      simp only [State.readLoc]
      split
      · exact .inl ⟨_, rfl⟩
      · exact .inr (.inr ⟨_, rfl⟩)
  · exact .inr (.inr ⟨_, rfl⟩)

/-- All that issuing a command word can do. -/
theorem issue_cases (s : State) (w : Word) :
    (∃ e, s.issue w = s.setErr e) ∨
      ∃ p, s.busy = false ∧ (p = .hash → s.len.toNat ≤ s.cfg.msgWords) ∧ s.issue w = s.accept p := by
  unfold State.issue
  split
  · exact .inl ⟨_, rfl⟩
  · rename_i hb
    have hb : s.busy = false := by simpa using hb
    split
    · exact .inl ⟨_, rfl⟩
    · exact .inl ⟨_, rfl⟩
    · exact .inl ⟨_, rfl⟩
    · exact .inr ⟨_, hb, by simp, rfl⟩
    · exact .inr ⟨_, hb, by simp, rfl⟩
    · split
      · exact .inl ⟨_, rfl⟩
      · rename_i hl
        exact .inr ⟨_, hb, fun _ => not_lt.1 hl, rfl⟩

/-- All that a host write can do: take a bus fault; issue a command at CMD; drop the write with BUSY_WRITE while busy;
or store while idle into LEN, T0, M or MSG. -/
theorem busWrite_cases (s : State) (off : Offset) (size : Nat) (w : Word) :
    (∃ f, s.busWrite off size w = s.raise f) ∨
      (locate s.cfg off size = some .cmd ∧ s.busWrite off size w = s.issue w) ∨
      (size = 8 ∧ s.busy = true ∧ s.busWrite off size w = s.setErr .busyWrite) ∨
      (s.busy = false ∧
        (s.busWrite off size w = { s with len := w } ∨ s.busWrite off size w = { s with t0 := w } ∨
          (∃ k j, s.busWrite off size w = s.setM k (s.m[k].set j w)) ∨
          ∃ j k, locate s.cfg off size = some (.msg j k) ∧ s.busWrite off size w = s.writeMsg j k w)) := by
  have size_eq {l : Loc} (h : locate s.cfg off size = some l) : size = 8 := by
    unfold locate at h
    split at h
    · rename_i hs; exact hs.1
    · cases h
  have stores {l : Loc} (h : locate s.cfg off size = some l) (t : State) :
      (size = 8 ∧ s.busy = true ∧ s.storesUnlessBusy t = s.setErr .busyWrite) ∨
        (s.busy = false ∧ s.storesUnlessBusy t = t) := by
    unfold State.storesUnlessBusy
    cases hb : s.busy with
    | true => exact .inl ⟨size_eq h, rfl, rfl⟩
    | false => exact .inr ⟨rfl, rfl⟩
  unfold State.busWrite
  split
  · rename_i l hl
    cases l with
    | id => exact .inl ⟨_, rfl⟩
    | config => exact .inl ⟨_, rfl⟩
    | cmd => exact .inr (.inl ⟨hl, rfl⟩)
    | status => exact .inl ⟨_, rfl⟩
    | len =>
      rcases stores hl { s with len := w } with h | h
      · exact .inr (.inr (.inl h))
      · exact .inr (.inr (.inr ⟨h.1, .inl h.2⟩))
    | t0 =>
      rcases stores hl { s with t0 := w } with h | h
      · exact .inr (.inr (.inl h))
      · exact .inr (.inr (.inr ⟨h.1, .inr (.inl h.2)⟩))
    | bcount => exact .inl ⟨_, rfl⟩
    | btotal => exact .inl ⟨_, rfl⟩
    | h k j => exact .inl ⟨_, rfl⟩
    | m k j =>
      rcases stores hl (s.setM k (s.m[k].set j w)) with h | h
      · exact .inr (.inr (.inl h))
      · exact .inr (.inr (.inr ⟨h.1, .inr (.inr (.inl ⟨k, j, h.2⟩))⟩))
    | msg j k =>
      rcases stores hl (s.writeMsg j k w) with h | h
      · exact .inr (.inr (.inl h))
      · exact .inr (.inr (.inr ⟨h.1, .inr (.inr (.inr ⟨j, k, hl, h.2⟩))⟩))
  · exact .inl ⟨_, rfl⟩

end Sys2Proof.Machine
end

