-- ==== Sys2Proof/Laws/Bus.lean ====
section
/-! SUPPORT. The address map from the side of a location: which location an offset written by R45 to R48 reaches. -/

namespace Sys2Proof.Machine

/-- An admitted configuration has at most eight lanes and a message memory of 1 to 2^25 words (R5, R6). -/
theorem admitted_bounds {c : Config} (h : admitted c = true) :
    (c.lanes = 1 ∨ c.lanes = 2 ∨ c.lanes = 4 ∨ c.lanes = 8) ∧ 1 ≤ c.msgWords ∧ c.msgWords ≤ 2 ^ 25 := by
  simp only [admitted, Bool.and_eq_true, Bool.or_eq_true, beq_iff_eq, decide_eq_true_eq] at h
  omega

theorem admitted_lanes_le {c : Config} (h : admitted c = true) : c.lanes ≤ 8 := by
  have := (admitted_bounds h).1
  omega

/-- An aligned access of size 8 reaches what its offset decodes to (R43). -/
theorem locate_eight (c : Config) (off : Offset) (h : off.toNat % 8 = 0) :
    locate c off 8 = decodeOffset c off.toNat := by simp [locate, h]

theorem decodeRegister_eq_some {off : Nat} {l : Loc} : decodeRegister off = some l ↔
    (off = 0x00 ∧ l = .id) ∨ (off = 0x08 ∧ l = .config) ∨ (off = 0x10 ∧ l = .cmd) ∨ (off = 0x18 ∧ l = .status) ∨
      (off = 0x20 ∧ l = .len) ∨ (off = 0x28 ∧ l = .t0) ∨ (off = 0x30 ∧ l = .bcount) ∨ (off = 0x38 ∧ l = .btotal) := by
  unfold decodeRegister
  split_ifs <;> subst_vars <;> simp_all [eq_comm]

theorem decodeH_eq_some {c : Config} {off : Nat} {l : Loc} : decodeH c off = some l ↔
    (0x100 ≤ off ∧ off < 0x300 ∧ windowLane 0x100 off < c.lanes) ∧
      l = .h (Fin.ofNat 8 (windowWord 0x100 off)) (windowLane 0x100 off) := by
  unfold decodeH
  rw [Option.ite_none_right_eq_some, Option.some.injEq, eq_comm (a := Loc.h _ _)]

theorem decodeM_eq_some {c : Config} {off : Nat} {l : Loc} : decodeM c off = some l ↔
    (0x400 ≤ off ∧ off < 0x800 ∧ windowLane 0x400 off < c.lanes) ∧
      l = .m (Fin.ofNat 16 (windowWord 0x400 off)) (windowLane 0x400 off) := by
  unfold decodeM
  rw [Option.ite_none_right_eq_some, Option.some.injEq, eq_comm (a := Loc.m _ _)]

theorem decodeMsg_eq_some {c : Config} {off : Nat} {l : Loc} : decodeMsg c off = some l ↔
    (0x80000000 ≤ off ∧ off < 0x80000000 + 64 * c.msgWords ∧ windowLane 0x80000000 off < c.lanes) ∧
      l = .msg (windowLane 0x80000000 off) (windowWord 0x80000000 off) := by
  unfold decodeMsg
  rw [Option.ite_none_right_eq_some, Option.some.injEq, eq_comm (a := Loc.msg _ _)]

theorem decodeRegister_eq_none {off : Nat} (h : 0x40 ≤ off) : decodeRegister off = none := by
  cases hd : decodeRegister off with
  | none => rfl
  | some l =>
    have := decodeRegister_eq_some.1 hd
    omega

theorem decodeH_eq_none {c : Config} {off : Nat} (h : off < 0x100 ∨ 0x300 ≤ off) : decodeH c off = none := by
  unfold decodeH
  rw [if_neg (by omega)]

theorem decodeM_eq_none {c : Config} {off : Nat} (h : off < 0x400 ∨ 0x800 ≤ off) : decodeM c off = none := by
  unfold decodeM
  rw [if_neg (by omega)]

/-- A register's offset decodes to it, in every configuration. -/
theorem decodeOffset_register (c : Config) {off : Nat} {l : Loc} (h : decodeRegister off = some l) :
    decodeOffset c off = some l := by
  unfold decodeOffset
  rw [h, Option.some_or]

theorem decodeOffset_h (c : Config) {off : Nat} (h : 0x100 ≤ off ∧ off < 0x300) : decodeOffset c off = decodeH c off := by
  have hm : decodeMsg c off = none := by
    unfold decodeMsg
    rw [if_neg (by omega)]
  unfold decodeOffset
  rw [decodeRegister_eq_none (by omega), decodeM_eq_none (by omega), hm]
  simp

theorem decodeOffset_m (c : Config) {off : Nat} (h : 0x400 ≤ off ∧ off < 0x800) : decodeOffset c off = decodeM c off := by
  have hm : decodeMsg c off = none := by
    unfold decodeMsg
    rw [if_neg (by omega)]
  unfold decodeOffset
  rw [decodeRegister_eq_none (by omega), decodeH_eq_none (by omega), hm]
  simp

theorem decodeOffset_msg (c : Config) {off : Nat} (h : 0x80000000 ≤ off) : decodeOffset c off = decodeMsg c off := by
  unfold decodeOffset
  rw [decodeRegister_eq_none (by omega), decodeH_eq_none (by omega), decodeM_eq_none (by omega)]
  simp

theorem locate_register {c : Config} {off : Offset} {l : Loc} (h : off.toNat % 8 = 0)
    (hl : decodeRegister off.toNat = some l) : locate c off 8 = some l := by
  rw [locate_eight _ _ h, decodeOffset_register c hl]

theorem locate_h {c : Config} (hc : admitted c = true) {off : Offset} {k : Fin 8} {j : Nat} (hj : j < c.lanes)
    (h : off.toNat = 0x100 + 64 * k.val + 8 * j) : locate c off 8 = some (.h k j) := by
  have hl := admitted_lanes_le hc
  have hk := k.2
  have hw : windowWord 0x100 off.toNat = k.val := by unfold windowWord; omega
  have hn : windowLane 0x100 off.toNat = j := by unfold windowLane; omega
  rw [locate_eight _ _ (by omega), decodeOffset_h _ (by omega), decodeH_eq_some, hw, hn]
  exact ⟨⟨by omega, by omega, hj⟩, by simp⟩

theorem locate_m {c : Config} (hc : admitted c = true) {off : Offset} {k : Fin 16} {j : Nat} (hj : j < c.lanes)
    (h : off.toNat = 0x400 + 64 * k.val + 8 * j) : locate c off 8 = some (.m k j) := by
  have hl := admitted_lanes_le hc
  have hk := k.2
  have hw : windowWord 0x400 off.toNat = k.val := by unfold windowWord; omega
  have hn : windowLane 0x400 off.toNat = j := by unfold windowLane; omega
  rw [locate_eight _ _ (by omega), decodeOffset_m _ (by omega), decodeM_eq_some, hw, hn]
  exact ⟨⟨by omega, by omega, hj⟩, by simp⟩

theorem locate_msg {c : Config} (hc : admitted c = true) {off : Offset} {j k : Nat} (hj : j < c.lanes)
    (hk : k < c.msgWords) (h : off.toNat = 0x80000000 + 64 * k + 8 * j) : locate c off 8 = some (.msg j k) := by
  have hl := admitted_lanes_le hc
  have hw : windowWord 0x80000000 off.toNat = k := by unfold windowWord; omega
  have hn : windowLane 0x80000000 off.toNat = j := by unfold windowLane; omega
  rw [locate_eight _ _ (by omega), decodeOffset_msg _ (by omega), decodeMsg_eq_some, hw, hn]
  exact ⟨⟨by omega, by omega, hj⟩, rfl⟩

/-- What an offset decodes to is decoded by one of the four parts. -/
theorem decodeOffset_eq_some {c : Config} {off : Nat} {l : Loc} (h : decodeOffset c off = some l) :
    decodeRegister off = some l ∨ decodeH c off = some l ∨ decodeM c off = some l ∨ decodeMsg c off = some l := by
  unfold decodeOffset at h
  rcases Option.or_eq_some_iff.1 h with h | ⟨-, h⟩
  · exact .inl h
  · rcases Option.or_eq_some_iff.1 h with h | ⟨-, h⟩
    · exact .inr (.inl h)
    · rcases Option.or_eq_some_iff.1 h with h | ⟨-, h⟩
      · exact .inr (.inr (.inl h))
      · exact .inr (.inr (.inr h))

theorem locate_eq_some {c : Config} {off : Offset} {size : Nat} {l : Loc} (h : locate c off size = some l) :
    size = 8 ∧ off.toNat % 8 = 0 ∧ decodeOffset c off.toNat = some l := by
  unfold locate at h
  split at h
  · rename_i hs
    exact ⟨hs.1, hs.2, h⟩
  · cases h

/-- A location of the MSG window that an access reaches is a cell of the configuration (R48, R49). -/
theorem locate_msg_mapped {c : Config} {off : Offset} {size j k : Nat} (h : locate c off size = some (.msg j k)) :
    j < c.lanes ∧ k < c.msgWords := by
  rcases decodeOffset_eq_some (locate_eq_some h).2.2 with h | h | h | h
  · simp [decodeRegister_eq_some] at h
  · simp [decodeH_eq_some] at h
  · simp [decodeM_eq_some] at h
  · obtain ⟨⟨h₁, h₂, h₃⟩, h₄⟩ := decodeMsg_eq_some.1 h
    obtain ⟨rfl, rfl⟩ : j = _ ∧ k = _ := by simpa using h₄
    refine ⟨h₃, ?_⟩
    unfold windowWord
    omega

/-- Only offset 0x10 is CMD (R45). -/
theorem locate_cmd {c : Config} {off : Offset} {size : Nat} (h : locate c off size = some .cmd) :
    off = 0x10 ∧ size = 8 := by
  refine ⟨BitVec.eq_of_toNat_eq ?_, (locate_eq_some h).1⟩
  rcases decodeOffset_eq_some (locate_eq_some h).2.2 with h | h | h | h
  · simpa [decodeRegister_eq_some] using h
  · simp [decodeH_eq_some] at h
  · simp [decodeM_eq_some] at h
  · simp [decodeMsg_eq_some] at h

/-- A host read of a location that its offset reaches (R50). -/
theorem busRead_of_locate {s : State} {off : Offset} {l : Loc} (h : locate s.cfg off 8 = some l) :
    s.busRead off 8 = s.readLoc off l := by
  unfold State.busRead
  rw [h]

/-- A host write to a location that its offset reaches (R52 to R55). -/
theorem busWrite_of_locate {s : State} {off : Offset} {l : Loc} {w : Word} (h : locate s.cfg off 8 = some l) :
    s.busWrite off 8 w = s.writeLoc off w l := by
  unfold State.busWrite
  rw [h]

theorem returnsUnlessBusy_idle {s : State} (h : s.busy = false) (w : Word) : s.returnsUnlessBusy w = s.returns w := by
  simp [State.returnsUnlessBusy, h]

theorem returnsUnlessBusy_busy {s : State} (h : s.busy = true) (w : Word) : s.returnsUnlessBusy w = s.returnsDraw := by
  simp [State.returnsUnlessBusy, h]

theorem storesUnlessBusy_idle {s : State} (h : s.busy = false) (t : State) : s.storesUnlessBusy t = t := by
  simp [State.storesUnlessBusy, h]

theorem storesUnlessBusy_busy {s : State} (h : s.busy = true) (t : State) :
    s.storesUnlessBusy t = s.setErr .busyWrite := by
  simp [State.storesUnlessBusy, h]

theorem readLoc_msg_written {s : State} {off : Offset} {j k : Nat} {w : Word} (h : s.readMsg j k = some w) :
    s.readLoc off (.msg j k) = s.returns w := by
  rw [State.readLoc, h]

theorem readLoc_msg_unwritten {s : State} {off : Offset} {j k : Nat} (h : s.readMsg j k = none) :
    s.readLoc off (.msg j k) = s.raise (.uninitRead off) := by
  rw [State.readLoc, h]

/-- In a machine that is not faulted, a model fault is recorded (R134). -/
theorem raise_of_unfaulted {s : State} (h : s.faulted = none) (f : Fault) : s.raise f = { s with faulted := some f } := by
  simp [State.raise, h]

end Sys2Proof.Machine
end

