-- ==== Sys2Proof/Laws/Decode.lean ====
section
/-! SUPPORT. The laws of the decoder: its tests on bits, said on numbers and on reserved bits (spec/30_encoding.md R65,
R66), and the five words it accepts. -/

namespace Sys2Proof.Machine

theorem opcodeOf_eq (w : Word) : opcodeOf w = w.toNat % 16 := by
  simp [opcodeOf]

/-- The bits an opcode allows (R65). -/
theorem allowedBits_getLsbD (opc : Nat) {n : Nat} (hn : n < 64) :
    (allowedBits opc).getLsbD n = (decide (n < 4) || (decide (n = 8) && decide (opc = 2))) := by
  unfold allowedBits
  by_cases h : opc = 2
  · simp only [h, if_true, decide_true, Bool.and_true]
    revert n
    decide
  · simp only [h, if_false, decide_false, Bool.and_false, Bool.or_false]
    revert n
    decide

/-- The decoder's test for reserved bits is the spec's list of them (R66). -/
theorem reserved_test_iff (w : Word) : w &&& ~~~ allowedBits (opcodeOf w) ≠ 0 ↔ ReservedBitSet w := by
  rw [opcodeOf_eq]
  constructor
  · intro h
    by_contra hc
    refine h (BitVec.eq_of_getElem_eq fun n hn => ?_)
    rw [BitVec.getElem_and, BitVec.getElem_not, ← BitVec.getLsbD_eq_getElem, ← BitVec.getLsbD_eq_getElem,
      allowedBits_getLsbD _ hn]
    have hz : (0 : Word)[n] = false := by simp
    rw [hz]
    cases hw : w.getLsbD n
    · rfl
    · rw [Bool.true_and]
      by_contra h2
      refine hc ⟨n, hw, ?_⟩
      simp at h2
      omega
  · rintro ⟨n, hw, h⟩ h0
    have hn : n < 64 := by omega
    have h1 : (w &&& ~~~ allowedBits (w.toNat % 16)).getLsbD n = false := by rw [h0]; simp
    rw [BitVec.getLsbD_and, BitVec.getLsbD_not, allowedBits_getLsbD _ hn, hw, decide_eq_true hn] at h1
    simp at h1
    omega

theorem decode_of_badOpcode {w : Word} (h : 4 ≤ w.toNat % 16) : decode w = .badOpcode := by
  unfold decode
  rw [opcodeOf_eq, if_pos h]

theorem decode_of_reserved {w : Word} (h : w.toNat % 16 < 4) (hr : ReservedBitSet w) : decode w = .reservedBits := by
  unfold decode
  rw [if_neg (by rw [opcodeOf_eq]; omega), if_pos ((reserved_test_iff w).2 hr)]

/-- A word without reserved bits has no bit outside bits 3:0 and bit 8. -/
theorem bit_of_not_reserved {w : Word} (h : ¬ ReservedBitSet w) {n : Nat} (hn : n < 64) (hw : w.getLsbD n = true) :
    n < 4 ∨ (n = 8 ∧ w.toNat % 16 = 2) := by
  by_contra hc
  refine h ⟨n, hw, ?_⟩
  omega

/-- A word is its low four bits and its bit 8, if no other bit is set. -/
theorem eq_low_or_flag {w : Word} (h : ∀ n, n < 64 → w.getLsbD n = true → n < 4 ∨ n = 8) :
    w = (w &&& 15) ||| (w &&& 256) := by
  refine BitVec.eq_of_getElem_eq fun n hn => ?_
  rw [← BitVec.getLsbD_eq_getElem, ← BitVec.getLsbD_eq_getElem, BitVec.getLsbD_or, BitVec.getLsbD_and,
    BitVec.getLsbD_and]
  cases hw : w.getLsbD n
  · rfl
  · rcases h n hn hw with h | rfl
    · interval_cases n <;> decide
    · decide

theorem low_bits (w : Word) : (w &&& 15).toNat = w.toNat % 16 := by
  rw [BitVec.toNat_and]
  exact Nat.and_two_pow_sub_one_eq_mod w.toNat 4

theorem bit_of_256 : ∀ n, n < 64 → n ≠ 8 → (256 : Word).getLsbD n = false := by decide

/-- Bit 8 alone, as a word: 0 or 256. -/
theorem flag_bits (w : Word) : w &&& 256 = if w.getLsbD 8 then 256 else 0 := by
  refine BitVec.eq_of_getElem_eq fun n hn => ?_
  rw [← BitVec.getLsbD_eq_getElem, ← BitVec.getLsbD_eq_getElem, BitVec.getLsbD_and]
  by_cases h8 : n = 8
  · subst h8
    cases w.getLsbD 8 <;> decide
  · rw [bit_of_256 n hn h8, Bool.and_false]
    cases w.getLsbD 8
    · simp
    · exact (bit_of_256 n hn h8).symm

/-- The five command words (R64): a word with an assigned opcode and no reserved bit is one of them, and decodes to its
command. -/
theorem decode_of_accepted {w : Word} (h : w.toNat % 16 < 4) (hr : ¬ ReservedBitSet w) :
    (w = 0 ∧ decode w = .nop) ∨ (w = 1 ∧ decode w = .init) ∨ (w = 2 ∧ decode w = .compress false) ∨
      (w = 258 ∧ decode w = .compress true) ∨ (w = 3 ∧ decode w = .hash) := by
  have hw := eq_low_or_flag (w := w) fun n hn hb => by
    rcases bit_of_not_reserved hr hn hb with h | h
    · exact .inl h
    · exact .inr h.1
  have hl := low_bits w
  rw [flag_bits] at hw
  have low : ∀ k : Nat, k < 4 → w.toNat % 16 = k → w &&& 15 = BitVec.ofNat 64 k := by
    intro k hk hm
    refine BitVec.eq_of_toNat_eq ?_
    rw [hl, hm, BitVec.toNat_ofNat, Nat.mod_eq_of_lt (by omega)]
  cases hf : w.getLsbD 8
  · rw [hf] at hw
    have hk : w.toNat % 16 = 0 ∨ w.toNat % 16 = 1 ∨ w.toNat % 16 = 2 ∨ w.toNat % 16 = 3 := by omega
    rcases hk with hk | hk | hk | hk
    · rw [low 0 (by decide) hk] at hw; subst hw; exact .inl ⟨rfl, by decide⟩
    · rw [low 1 (by decide) hk] at hw; subst hw; exact .inr (.inl ⟨rfl, by decide⟩)
    · rw [low 2 (by decide) hk] at hw; subst hw; exact .inr (.inr (.inl ⟨rfl, by decide⟩))
    · rw [low 3 (by decide) hk] at hw; subst hw; exact .inr (.inr (.inr (.inr ⟨rfl, by decide⟩)))
  · rw [hf] at hw
    have h2 : w.toNat % 16 = 2 := by
      rcases bit_of_not_reserved hr (by decide) hf with h | h
      · omega
      · exact h.2
    rw [low 2 (by decide) h2] at hw
    subst hw
    exact .inr (.inr (.inr (.inl ⟨rfl, by decide⟩)))

end Sys2Proof.Machine
end

