-- ==== Sys2Proof/Laws/Lanes.lean ====
section
/-! SUPPORT. The laws of lane arithmetic: lane j of a lane-wise operation is the scalar operation on lane j, and the
number of lanes stays. -/

namespace Sys2Proof.Machine

@[simp] theorem getElem_tabulate {α : Type} (n : Nat) (f : Fin n → α) (k : Nat) (hk : k < n) :
    (tabulate n f)[k] = f ⟨k, hk⟩ := by
  simp [tabulate]

@[simp] theorem length_splat (lanes : Nat) (w : Word) : (splat lanes w).length = lanes := by simp [splat]

@[simp] theorem length_vadd (a b : VecWord) : (vadd a b).length = min a.length b.length := by simp [vadd]

@[simp] theorem length_vxor (a b : VecWord) : (vxor a b).length = min a.length b.length := by simp [vxor]

@[simp] theorem length_vrotr (a : VecWord) (n : RotDist) : (vrotr a n).length = a.length := by simp [vrotr]

theorem laneOf_splat {lanes j : Nat} (hj : j < lanes) (w : Word) : laneOf (splat lanes w) j = w := by
  simp [laneOf, splat, List.getD_eq_getElem?_getD, hj]

theorem laneOf_vadd {a b : VecWord} {j : Nat} (ha : j < a.length) (hb : j < b.length) :
    laneOf (vadd a b) j = laneOf a j + laneOf b j := by
  simp [laneOf, vadd, List.getD_eq_getElem?_getD, ha, hb]

theorem laneOf_vxor {a b : VecWord} {j : Nat} (ha : j < a.length) (hb : j < b.length) :
    laneOf (vxor a b) j = laneOf a j ^^^ laneOf b j := by
  simp [laneOf, vxor, List.getD_eq_getElem?_getD, ha, hb]

theorem laneOf_vrotr {a : VecWord} {j : Nat} (ha : j < a.length) (n : RotDist) :
    laneOf (vrotr a n) j = rotr (laneOf a j) (distance n) := by
  simp [laneOf, vrotr, List.getD_eq_getElem?_getD, ha]

/-- Writing lane j of a vector word changes lane j alone. -/
theorem laneOf_set {a : VecWord} {j : Nat} (hj : j < a.length) (w : Word) (j' : Nat) :
    laneOf (a.set j w) j' = if j' = j then w else laneOf a j' := by
  unfold laneOf
  rw [List.getD_eq_getElem?_getD, List.getD_eq_getElem?_getD, List.getElem?_set]
  by_cases h : j = j'
  · simp [← h, hj]
  · simp [h, Ne.symm h]

theorem laneOf_map_range {lanes j : Nat} (hj : j < lanes) (f : Nat → Word) :
    laneOf ((List.range lanes).map f) j = f j := by
  simp [laneOf, List.getD_eq_getElem?_getD, hj]

@[simp] theorem vxor_splat (lanes : Nat) (w x : Word) : vxor (splat lanes w) (splat lanes x) = splat lanes (w ^^^ x) := by
  simp [vxor, splat]

@[simp] theorem getElem_laneH (h : HFile) (j k : Nat) (hk : k < 8) : (laneH h j)[k] = laneOf h[k] j := by simp [laneH]

@[simp] theorem getElem_lane16 (v : Vector VecWord 16) (j k : Nat) (hk : k < 16) : (lane16 v j)[k] = laneOf v[k] j := by
  simp [lane16]

/-- Bit i of a rotated word is bit (i + n) mod 64 of the word (R75). -/
theorem rotr_getLsbD (x : Word) {n i : Nat} (hn : 0 < n) (h64 : n < 64) (hi : i < 64) :
    (rotr x n).getLsbD i = x.getLsbD ((i + n) % 64) := by
  unfold rotr
  rw [BitVec.getLsbD_or, BitVec.getLsbD_ushiftRight, BitVec.getLsbD_shiftLeft]
  by_cases h : i + n < 64
  · rw [Nat.mod_eq_of_lt h, Nat.add_comm]
    have : i < 64 - n := by omega
    simp [hi, this]
  · have e : (i + n) % 64 = i - (64 - n) := by omega
    have : ¬ i < 64 - n := by omega
    rw [e, BitVec.getLsbD_of_ge x (n + i) (by omega)]
    simp [hi, this]

theorem distance_pos (n : RotDist) : 0 < distance n := by cases n <;> decide

theorem distance_lt (n : RotDist) : distance n < 64 := by cases n <;> decide

end Sys2Proof.Machine
end

