-- ==== Sys2Proof/Laws/Shape.lean ====
section
/-! SUPPORT. Every vector word keeps one value per lane (R17): one lemma for each file-level function, then one for
`exec`. -/

namespace Sys2Proof.Machine

/-- Every word of a file has `lanes` values. -/
def FileShaped {n : Nat} (lanes : Nat) (v : Vector VecWord n) : Prop := ∀ (k : Nat) (hk : k < n), v[k].length = lanes

theorem FileShaped.set {n lanes : Nat} {v : Vector VecWord n} (hv : FileShaped lanes v) (k : Nat) (hk : k < n)
    {x : VecWord} (hx : x.length = lanes) : FileShaped lanes (v.set k x hk) := by
  intro i hi
  rw [Vector.getElem_set]
  split_ifs
  · exact hx
  · exact hv i hi

theorem FileShaped.tabulate {n lanes : Nat} {f : Fin n → VecWord} (hf : ∀ k, (f k).length = lanes) :
    FileShaped lanes (tabulate n f) := by
  intro k hk
  simpa using hf ⟨k, hk⟩

theorem FileShaped.of_fin {n lanes : Nat} {v : Vector VecWord n} (hv : ∀ k : Fin n, v[k].length = lanes) :
    FileShaped lanes v := fun k hk => hv ⟨k, hk⟩

theorem FileShaped.gMix {lanes : Nat} {v : VFile} (hv : FileShaped lanes v) {x y : VecWord} (hx : x.length = lanes)
    (hy : y.length = lanes) (a b c d : Fin 16) : FileShaped lanes (gMix a b c d x y v) := by
  have add : ∀ {p q : VecWord}, p.length = lanes → q.length = lanes → (vadd p q).length = lanes := by
    intro p q hp hq; simp [hp, hq]
  have mix : ∀ {p q : VecWord} (n : RotDist), p.length = lanes → q.length = lanes →
      (vrotr (vxor p q) n).length = lanes := by
    intro p q n hp hq; simp [hp, hq]
  have h1 := hv.set a a.2 (add (add (hv a a.2) (hv b b.2)) hx)
  have h2 := h1.set d d.2 (mix .r32 (h1 d d.2) (h1 a a.2))
  have h3 := h2.set c c.2 (add (h2 c c.2) (h2 d d.2))
  have h4 := h3.set b b.2 (mix .r24 (h3 b b.2) (h3 c c.2))
  have h5 := h4.set a a.2 (add (add (h4 a a.2) (h4 b b.2)) hy)
  have h6 := h5.set d d.2 (mix .r16 (h5 d d.2) (h5 a a.2))
  have h7 := h6.set c c.2 (add (h6 c c.2) (h6 d d.2))
  exact h7.set b b.2 (mix .r63 (h7 b b.2) (h7 c c.2))

theorem FileShaped.scheduledMix {lanes : Nat} {m : MFile} (hm : FileShaped lanes m) {v : VFile}
    (hv : FileShaped lanes v) (r : Fin 12) (g : Fin 8) (a b c d : Fin 16) :
    FileShaped lanes (scheduledMix m r g a b c d v) := by
  have hx : (schedPair m r g).1.length = lanes := hm (schedIndexX r g).val (schedIndexX r g).2
  have hy : (schedPair m r g).2.length = lanes := hm (schedIndexY r g).val (schedIndexY r g).2
  unfold Machine.scheduledMix
  exact hv.gMix hx hy a b c d

theorem FileShaped.roundFile {lanes : Nat} {m : MFile} (hm : FileShaped lanes m) {v : VFile}
    (hv : FileShaped lanes v) (r : Fin 12) : FileShaped lanes (roundFile m r v) := by
  unfold Machine.roundFile
  iterate 8 refine hm.scheduledMix ?_ r _ _ _ _ _
  exact hv

theorem FileShaped.allRounds {lanes : Nat} {m : MFile} (hm : FileShaped lanes m) {v : VFile}
    (hv : FileShaped lanes v) : FileShaped lanes (allRounds m v) := by
  unfold Machine.allRounds
  generalize List.finRange 12 = rs
  induction rs generalizing v with
  | nil => exact hv
  | cons r rs ih =>
    rw [List.foldl_cons]
    have hr := hm.roundFile hv r
    exact ih hr

theorem FileShaped.vinitFile {lanes : Nat} {h : HFile} (hh : FileShaped lanes h) (t : Word) (f : Bool) :
    FileShaped lanes (vinitFile lanes h t f) := by
  have base : FileShaped lanes (Machine.tabulate 16 fun k : Fin 16 =>
      if hk : k.val < 8 then h[k.val] else splat lanes (iv[k.val - 8]'(by omega))) := by
    refine FileShaped.tabulate fun k => ?_
    split_ifs with hk
    · exact hh k.val hk
    · simp
  have h12 := base.set 12 (by omega)
    (x := vxor (Machine.tabulate 16 fun k : Fin 16 =>
      if hk : k.val < 8 then h[k.val] else splat lanes (iv[k.val - 8]'(by omega)))[12] (splat lanes t))
    (by rw [length_vxor, base 12 (by omega)]; simp)
  exact h12.set 14 (by omega) (by rw [length_vxor]; erw [h12 14 (by omega)]; simp)

theorem FileShaped.feedFile {lanes : Nat} {h : HFile} (hh : FileShaped lanes h) {v : VFile} (hv : FileShaped lanes v) :
    FileShaped lanes (feedFile h v) := by
  refine FileShaped.tabulate fun k => ?_
  rw [length_vxor, length_vxor, hh k.val k.2, hv k.val (by omega), hv (k.val + 8) (by omega)]
  simp

theorem FileShaped.compressedV {lanes : Nat} {h : HFile} (hh : FileShaped lanes h) {m : MFile}
    (hm : FileShaped lanes m) (t : Word) (f : Bool) : FileShaped lanes (compressedV lanes h m t f) :=
  hm.allRounds (hh.vinitFile t f)

theorem FileShaped.compressedH {lanes : Nat} {h : HFile} (hh : FileShaped lanes h) {m : MFile}
    (hm : FileShaped lanes m) (t : Word) (f : Bool) : FileShaped lanes (compressedH lanes h m t f) :=
  hh.feedFile (hh.compressedV hm t f)

theorem FileShaped.initFile (lanes : Nat) : FileShaped lanes (initFile lanes) := by
  have base : FileShaped lanes (Machine.tabulate 8 fun k : Fin 8 => splat lanes iv[k]) :=
    FileShaped.tabulate fun k => length_splat _ _
  exact base.set 0 (by omega) (by rw [length_vxor]; erw [base 0 (by omega)]; simp)

/-- A state whose files and SCHED words are shaped is shaped. -/
theorem State.Shaped.of_files {s : State} (h : FileShaped s.cfg.lanes s.h) (v : FileShaped s.cfg.lanes s.v)
    (m : FileShaped s.cfg.lanes s.m) (x : s.schedX.length = s.cfg.lanes) (y : s.schedY.length = s.cfg.lanes) :
    s.Shaped := ⟨fun k => h k k.2, fun k => v k k.2, fun k => m k k.2, x, y⟩

theorem State.Shaped.hFile {s : State} (hs : s.Shaped) : FileShaped s.cfg.lanes s.h := FileShaped.of_fin hs.h

theorem State.Shaped.vFile {s : State} (hs : s.Shaped) : FileShaped s.cfg.lanes s.v := FileShaped.of_fin hs.v

theorem State.Shaped.mFile {s : State} (hs : s.Shaped) : FileShaped s.cfg.lanes s.m := FileShaped.of_fin hs.m

/-- A vector operand has one value per lane. -/
theorem State.Shaped.readSrc {s : State} (hs : s.Shaped) (a : VSrc) : (s.readSrc a).length = s.cfg.lanes := by
  cases a with
  | v k => exact hs.v k
  | h k => exact hs.h k
  | m k => exact hs.m k
  | schedX => exact hs.schedX
  | schedY => exact hs.schedY
  | splat w => exact length_splat _ _

theorem State.Shaped.writeDst {s : State} (hs : s.Shaped) (d : VDst) {x : VecWord} (hx : x.length = s.cfg.lanes) :
    (s.writeDst d x).Shaped := by
  cases d with
  | v k => exact State.Shaped.of_files hs.hFile (hs.vFile.set k k.2 hx) hs.mFile hs.schedX hs.schedY
  | h k => exact State.Shaped.of_files (hs.hFile.set k k.2 hx) hs.vFile hs.mFile hs.schedX hs.schedY

theorem State.Shaped.initStep {s : State} (hs : s.Shaped) : s.initStep.Shaped :=
  State.Shaped.of_files (FileShaped.initFile _) hs.vFile hs.mFile hs.schedX hs.schedY

theorem State.Shaped.compression {s : State} (hs : s.Shaped) (f : Bool) : (s.compression f).Shaped := by
  refine State.Shaped.of_files ?_ ?_ hs.mFile hs.schedX hs.schedY
  · rw [State.compression_cfg, State.compression_h]
    exact hs.hFile.compressedH hs.mFile s.t0 f
  · rw [State.compression_cfg, State.compression_v]
    exact hs.hFile.compressedV hs.mFile s.t0 f

theorem State.Shaped.buildBlock {s : State} (hs : s.Shaped) (len n : Nat) : (s.buildBlock len n).Shaped :=
  State.Shaped.of_files hs.hFile hs.vFile (FileShaped.tabulate fun k => by simp) hs.schedX hs.schedY

/-- A change that leaves the configuration, the files and SCHED's words alone keeps the shape. -/
theorem State.Shaped.congr {s t : State} (hs : s.Shaped) (hc : t.cfg = s.cfg) (hh : t.h = s.h) (hv : t.v = s.v)
    (hm : t.m = s.m) (hx : t.schedX = s.schedX) (hy : t.schedY = s.schedY) : t.Shaped :=
  ⟨fun k => by rw [hh, hc]; exact hs.h k, fun k => by rw [hv, hc]; exact hs.v k, fun k => by rw [hm, hc]; exact hs.m k,
    by rw [hx, hc]; exact hs.schedX, by rw [hy, hc]; exact hs.schedY⟩

theorem State.Shaped.hashBlock {s : State} (hs : s.Shaped) (len n : Nat) : (s.hashBlock len n).Shaped := by
  have hb : State.Shaped { s.buildBlock len n with t0 := BitVec.ofNat 64 (byteOffset len n) } :=
    (hs.buildBlock len n).congr rfl rfl rfl rfl rfl rfl
  unfold State.hashBlock
  exact hb.compression _

end Sys2Proof.Machine
end

