-- ==== Sys2Proof/Laws/Hash.lean ====
section
/-! SUPPORT. HASH: the check before it, and what the blocks leave alone (spec/43_init_hash_padding.md R114, R115). -/

namespace Sys2Proof.Machine

/-- Nothing is unwritten exactly when every cell of those word indices is written. -/
theorem firstUnwritten_eq_none {s : State} {ks : List Nat} :
    s.firstUnwritten ks = none ↔ ∀ k ∈ ks, ∀ j < s.cfg.lanes, s.readMsg j k ≠ none := by
  simp [State.firstUnwritten, List.findSome?_eq_none_iff]

/-- The cell that is reported is unwritten, in a lane j < N, at one of the word indices. -/
theorem firstUnwritten_eq_some {s : State} {ks : List Nat} {j k : Nat} (h : s.firstUnwritten ks = some (j, k)) :
    k ∈ ks ∧ j < s.cfg.lanes ∧ s.readMsg j k = none := by
  unfold State.firstUnwritten at h
  obtain ⟨k', hk', h⟩ := List.exists_of_findSome?_eq_some h
  obtain ⟨j', hj', h⟩ := List.exists_of_findSome?_eq_some h
  split_ifs at h with hn
  obtain ⟨rfl, rfl⟩ : j' = j ∧ k' = k := by simpa using h
  exact ⟨hk', by simpa using hj', hn⟩

theorem firstUnwritten_of_written {s : State} (h : s.MessageWritten) :
    s.firstUnwritten (List.range s.len.toNat) = none :=
  firstUnwritten_eq_none.2 fun k hk j hj => h j k hj (by simpa using hk)

/-- HASH of a written message completes (R114). -/
theorem execHash_of_written {s : State} (h : s.MessageWritten) :
    execHash s = .next (s.hashMessage s.len.toNat).complete := by
  unfold execHash
  rw [firstUnwritten_of_written h]

/-- HASH either takes UNINIT_MSG or runs all its blocks. -/
theorem execHash_next {s s' : State} (h : execHash s = .next s') :
    (∃ j k, s' = s.raise (.uninitMsg j k)) ∨ s' = (s.hashMessage s.len.toNat).complete := by
  unfold execHash at h
  split at h
  · exact .inl ⟨_, _, by simpa using h.symm⟩
  · exact .inr (by simpa using h.symm)

/-- BUILD either takes UNINIT_MSG or builds its block. -/
theorem execBuild_next {s s' : State} {n : Nat} (h : execBuild n s = .next s') :
    (∃ j k, s' = s.raise (.uninitMsg j k)) ∨ s' = s.buildBlock s.len.toNat n := by
  unfold execBuild at h
  split at h
  · exact .inl ⟨_, _, by simpa using h.symm⟩
  · exact .inr (by simpa using h.symm)

/-- What a block of HASH leaves alone (R35, R115): everything but H, V, M, T0, BCOUNT and FINAL. -/
def SameButBlockState (s t : State) : Prop :=
  t = { s with h := t.h, v := t.v, m := t.m, t0 := t.t0, bcount := t.bcount, isFinal := t.isFinal }

theorem SameButBlockState.refl (s : State) : SameButBlockState s s := rfl

theorem SameButBlockState.trans {s t u : State} (h₁ : SameButBlockState s t) (h₂ : SameButBlockState t u) :
    SameButBlockState s u := by
  unfold SameButBlockState at *
  rw [h₁] at h₂
  exact h₂

theorem hashBlock_same (s : State) (len n : Nat) : SameButBlockState s (s.hashBlock len n) := rfl

/-- The fold of blocks, with what it is a fold of. -/
theorem hashBlocks_same (len : Nat) (ns : List Nat) (s : State) :
    SameButBlockState s (ns.foldl (fun t n => t.hashBlock len n) s) := by
  induction ns generalizing s with
  | nil => exact SameButBlockState.refl s
  | cons n ns ih =>
    rw [List.foldl_cons]
    exact (hashBlock_same s len n).trans (ih _)

theorem hashBlocks_shaped (len : Nat) (ns : List Nat) {s : State} (hs : s.Shaped) :
    (ns.foldl (fun t n => t.hashBlock len n) s).Shaped := by
  induction ns generalizing s with
  | nil => exact hs
  | cons n ns ih =>
    rw [List.foldl_cons]
    exact ih (hs.hashBlock len n)

theorem hashMessage_shaped {s : State} (hs : s.Shaped) (len : Nat) : (s.hashMessage len).Shaped := by
  unfold State.hashMessage
  refine hashBlocks_shaped len _ ?_
  exact hs.initStep.congr rfl rfl rfl rfl rfl rfl

/-- What HASH leaves alone (R115): everything but H, V, M, T0, BCOUNT, BTOTAL and FINAL. -/
theorem hashMessage_same (s : State) (len : Nat) :
    s.hashMessage len = { s with
      h := (s.hashMessage len).h, v := (s.hashMessage len).v, m := (s.hashMessage len).m
      t0 := (s.hashMessage len).t0, bcount := (s.hashMessage len).bcount
      btotal := BitVec.ofNat 64 (blockCount len), isFinal := (s.hashMessage len).isFinal } := by
  have h := hashBlocks_same len (List.range (blockCount len))
    { s.initStep with btotal := BitVec.ofNat 64 (blockCount len) }
  exact h

/-- The first hit of a search through 0, 1, ..., n - 1. -/
theorem findSome?_range_first {β : Type} {f : Nat → Option β} {n : Nat} {b : β}
    (h : (List.range n).findSome? f = some b) : ∃ k, k < n ∧ f k = some b ∧ ∀ i, i < k → f i = none := by
  induction n with
  | zero => simp at h
  | succ n ih =>
    rw [List.range_succ, List.findSome?_append] at h
    rcases Option.or_eq_some_iff.1 h with h | ⟨h0, h⟩
    · obtain ⟨k, hk, h⟩ := ih h
      exact ⟨k, by omega, h⟩
    · refine ⟨n, by omega, by simpa using h, fun i hi => ?_⟩
      exact List.findSome?_eq_none_iff.1 h0 i (by simpa using hi)

/-- The cell that HASH's check reports is the one with the smallest k, then the smallest j (R114, R133). -/
theorem firstUnwritten_least {s : State} {n j k : Nat} (h : s.firstUnwritten (List.range n) = some (j, k))
    {j' k' : Nat} (hj' : j' < s.cfg.lanes) (hk' : k' < n) (hu : s.readMsg j' k' = none) :
    k < k' ∨ (k = k' ∧ j ≤ j') := by
  obtain ⟨k₀, -, h1, h2⟩ := findSome?_range_first h
  obtain ⟨j₀, -, h3, h4⟩ := findSome?_range_first h1
  split_ifs at h3 with hn
  obtain ⟨rfl, rfl⟩ : j₀ = j ∧ k₀ = k := by simpa using h3
  rcases lt_trichotomy k₀ k' with hlt | rfl | hgt
  · exact .inl hlt
  · refine .inr ⟨rfl, ?_⟩
    by_contra hc
    have := h4 j' (by omega)
    simp [hu] at this
  · have := h2 k' hgt
    rw [List.findSome?_eq_none_iff] at this
    have := this j' (by simpa using hj')
    simp [hu] at this

/-- BUILD over a written message builds its block (R113). -/
theorem execBuild_of_written {s : State} {n : Nat}
    (h : ∀ j k, j < s.cfg.lanes → k < 16 → 16 * n + k < s.len.toNat → s.readMsg j (16 * n + k) ≠ none) :
    execBuild n s = .next (s.buildBlock s.len.toNat n) := by
  have hn : s.firstUnwritten (blockIndices s.len.toNat n) = none := by
    rw [firstUnwritten_eq_none]
    intro k hk j hj
    simp only [blockIndices, List.mem_filter, List.mem_map, List.mem_range, decide_eq_true_eq] at hk
    obtain ⟨⟨i, hi, rfl⟩, hl⟩ := hk
    exact h j i hj hi hl
  unfold execBuild
  rw [hn]

/-- A block of HASH commutes with the end of the command: it neither reads nor writes PEND and BUSY. -/
theorem hashBlock_complete (s : State) (len n : Nat) : (s.hashBlock len n).complete = s.complete.hashBlock len n := by
  unfold State.hashBlock State.compression State.complete
  rfl

/-- A block of HASH neither reads nor writes BTOTAL. -/
theorem hashBlock_btotal (s : State) (len n : Nat) (b : Word) :
    { s.hashBlock len n with btotal := b } = State.hashBlock { s with btotal := b } len n := by
  unfold State.hashBlock State.compression
  rfl

theorem hashBlocks_complete (len : Nat) (ns : List Nat) (s : State) :
    State.complete (ns.foldl (fun t n => t.hashBlock len n) s) = ns.foldl (fun t n => t.hashBlock len n) s.complete := by
  induction ns generalizing s with
  | nil => rfl
  | cons n ns ih => rw [List.foldl_cons, List.foldl_cons, ih, hashBlock_complete]

theorem hashBlocks_btotal (len : Nat) (ns : List Nat) (s : State) (b : Word) :
    { ns.foldl (fun t n => t.hashBlock len n) s with btotal := b } =
      ns.foldl (fun t n => t.hashBlock len n) { s with btotal := b } := by
  induction ns generalizing s with
  | nil => rfl
  | cons n ns ih => rw [List.foldl_cons, List.foldl_cons, ih, hashBlock_btotal]

/-- BCOUNT counts the blocks (R28). -/
theorem hashBlocks_bcount (len : Nat) (ns : List Nat) (s : State) :
    (ns.foldl (fun t n => t.hashBlock len n) s).bcount = s.bcount + BitVec.ofNat 64 ns.length := by
  induction ns generalizing s with
  | nil => simp
  | cons n ns ih =>
    rw [List.foldl_cons, ih]
    show s.bcount + 1 + _ = _
    rw [List.length_cons, BitVec.add_assoc, Nat.add_comm ns.length, BitVec.ofNat_add]
    rfl

theorem blockCount_pos (len : Nat) : 0 < blockCount len := by
  unfold blockCount
  split <;> omega

end Sys2Proof.Machine
end

