-- ==== Sys2Proof/Laws/Exec.lean ====
section
/-! SUPPORT. What every instruction leaves alone, said once over all instructions: the inversion of `exec` that the
whole-machine statements cite. -/

namespace Sys2Proof.Machine

/-- What no instruction changes when it answers a next state: the configuration, MSG and LEN (R56), the model's own
schedule and read data; ERR but for NOP (R126); FAULTED once it is set (R134). -/
structure ExecKeeps (i : Instr) (s t : State) : Prop where
  cfg : t.cfg = s.cfg
  msg : t.msg = s.msg
  len : t.len = s.len
  schedule : t.schedule = s.schedule
  readData : t.readData = s.readData
  draws : t.draws = s.draws
  err : t.err = if i = .nop then .noError else s.err
  faulted : t.faulted = s.faulted ∨ s.faulted = none
  pend : (t.pend = s.pend ∧ t.busy = s.busy) ∨ (t.pend = none ∧ t.busy = false)

theorem raise_keeps {i : Instr} (hi : i ≠ .nop) (s : State) (f : Fault) : ExecKeeps i s (s.raise f) := by
  refine ⟨rfl, rfl, rfl, rfl, rfl, rfl, by simp [hi], ?_, .inl ⟨rfl, rfl⟩⟩
  cases hf : s.faulted
  · exact .inr rfl
  · exact .inl (by simp [hf])

theorem writeDst_keeps {i : Instr} (hi : i ≠ .nop) (s : State) (d : VDst) (x : VecWord) :
    ExecKeeps i s (s.writeDst d x) := by
  cases d <;> exact ⟨rfl, rfl, rfl, rfl, rfl, rfl, by simp [hi, State.writeDst], .inl rfl, .inl ⟨rfl, rfl⟩⟩

theorem exec_keeps {i : Instr} {s t : State} (h : exec i s = .next t) : ExecKeeps i s t := by
  cases i with
  | nop =>
    obtain rfl := Host.Outcome.next.inj h
    exact ⟨rfl, rfl, rfl, rfl, rfl, rfl, rfl, .inl rfl, .inl ⟨rfl, rfl⟩⟩
  | init =>
    obtain rfl := Host.Outcome.next.inj h
    exact ⟨rfl, rfl, rfl, rfl, rfl, rfl, rfl, .inl rfl, .inr ⟨rfl, rfl⟩⟩
  | compress f =>
    obtain rfl := Host.Outcome.next.inj h
    exact ⟨rfl, rfl, rfl, rfl, rfl, rfl, rfl, .inl rfl, .inr ⟨rfl, rfl⟩⟩
  | hash =>
    rcases execHash_next h with ⟨j, k, rfl⟩ | rfl
    · exact raise_keeps (by simp) s _
    · rw [hashMessage_same]
      exact ⟨rfl, rfl, rfl, rfl, rfl, rfl, rfl, .inl rfl, .inr ⟨rfl, rfl⟩⟩
  | add d a b => obtain rfl := Host.Outcome.next.inj h; exact writeDst_keeps (by simp) s d _
  | xor d a b => obtain rfl := Host.Outcome.next.inj h; exact writeDst_keeps (by simp) s d _
  | rotr d a n => obtain rfl := Host.Outcome.next.inj h; exact writeDst_keeps (by simp) s d _
  | g a b c d x y =>
    obtain rfl := Host.Outcome.next.inj h
    exact ⟨rfl, rfl, rfl, rfl, rfl, rfl, rfl, .inl rfl, .inl ⟨rfl, rfl⟩⟩
  | sched r c =>
    obtain rfl := Host.Outcome.next.inj h
    exact ⟨rfl, rfl, rfl, rfl, rfl, rfl, rfl, .inl rfl, .inl ⟨rfl, rfl⟩⟩
  | vinit t f =>
    obtain rfl := Host.Outcome.next.inj h
    exact ⟨rfl, rfl, rfl, rfl, rfl, rfl, rfl, .inl rfl, .inl ⟨rfl, rfl⟩⟩
  | round r =>
    obtain rfl := Host.Outcome.next.inj h
    exact ⟨rfl, rfl, rfl, rfl, rfl, rfl, rfl, .inl rfl, .inl ⟨rfl, rfl⟩⟩
  | feed =>
    obtain rfl := Host.Outcome.next.inj h
    exact ⟨rfl, rfl, rfl, rfl, rfl, rfl, rfl, .inl rfl, .inl ⟨rfl, rfl⟩⟩
  | build n =>
    rcases execBuild_next h with ⟨j, k, rfl⟩ | rfl
    · exact raise_keeps (by simp) s _
    · exact ⟨rfl, rfl, rfl, rfl, rfl, rfl, rfl, .inl rfl, .inl ⟨rfl, rfl⟩⟩

/-- Every instruction keeps one value per lane in every vector word (R17). -/
theorem exec_shaped {i : Instr} {s t : State} (hs : s.Shaped) (h : exec i s = .next t) : t.Shaped := by
  cases i with
  | nop => obtain rfl := Host.Outcome.next.inj h; exact hs.congr rfl rfl rfl rfl rfl rfl
  | init => obtain rfl := Host.Outcome.next.inj h; exact hs.initStep.congr rfl rfl rfl rfl rfl rfl
  | compress f => obtain rfl := Host.Outcome.next.inj h; exact (hs.compression f).congr rfl rfl rfl rfl rfl rfl
  | hash =>
    rcases execHash_next h with ⟨j, k, rfl⟩ | rfl
    · exact hs.congr rfl rfl rfl rfl rfl rfl
    · exact (hashMessage_shaped hs _).congr rfl rfl rfl rfl rfl rfl
  | add d a b => obtain rfl := Host.Outcome.next.inj h; exact hs.writeDst d (by simp [hs.readSrc])
  | xor d a b => obtain rfl := Host.Outcome.next.inj h; exact hs.writeDst d (by simp [hs.readSrc])
  | rotr d a n => obtain rfl := Host.Outcome.next.inj h; exact hs.writeDst d (by simp [hs.readSrc])
  | g a b c d x y =>
    obtain rfl := Host.Outcome.next.inj h
    exact State.Shaped.of_files hs.hFile (hs.vFile.gMix (hs.readSrc x) (hs.readSrc y) a b c d) hs.mFile hs.schedX
      hs.schedY
  | sched r c =>
    obtain rfl := Host.Outcome.next.inj h
    exact State.Shaped.of_files hs.hFile hs.vFile hs.mFile (hs.mFile _ _) (hs.mFile _ _)
  | vinit t f =>
    obtain rfl := Host.Outcome.next.inj h
    exact State.Shaped.of_files hs.hFile (hs.hFile.vinitFile t f) hs.mFile hs.schedX hs.schedY
  | round r =>
    obtain rfl := Host.Outcome.next.inj h
    exact State.Shaped.of_files hs.hFile (hs.mFile.roundFile hs.vFile r) hs.mFile hs.schedX hs.schedY
  | feed =>
    obtain rfl := Host.Outcome.next.inj h
    exact State.Shaped.of_files (hs.hFile.feedFile hs.vFile) hs.vFile hs.mFile hs.schedX hs.schedY
  | build n =>
    rcases execBuild_next h with ⟨j, k, rfl⟩ | rfl
    · exact hs.congr rfl rfl rfl rfl rfl rfl
    · exact hs.buildBlock _ _

/-- A change that leaves alone all that the invariant reads keeps the invariant. -/
theorem State.Inv.congr {s t : State} (h : s.Inv) (hc : t.cfg = s.cfg) (hh : t.h = s.h) (hv : t.v = s.v)
    (hm : t.m = s.m) (hx : t.schedX = s.schedX) (hy : t.schedY = s.schedY) (hg : t.msg = s.msg)
    (hb : t.busy = s.busy) (hp : t.pend = s.pend) (hl : t.len = s.len) : t.Inv := by
  refine ⟨hc ▸ h.config, h.shaped.congr hc hh hv hm hx hy, hg ▸ h.msgWf, ?_, by rw [hb, hp]; exact h.busyIffPending,
    by rw [hp, hl, hc]; exact h.hashLen⟩
  intro c hcm
  rw [hg] at hcm
  rw [hc]
  exact h.msgInWindow c hcm

/-- Running instructions one after the other: the first, then the rest. -/
theorem runInstrs_cons {i : Instr} {rest : List Instr} {s t : State} (h : exec i s = .next t) :
    runInstrs (i :: rest) s = runInstrs rest t := by
  simp [runInstrs, h]

end Sys2Proof.Machine
end

