-- ==== Sys2Proof/Laws/LaneScalar.lean ====
section
/-! SUPPORT. Lane j of each step of a compression is the scalar step on lane j (spec/40_lane_mixer.md R83,
spec/42_compress.md R93): one lemma for each file-level function of the machine. -/

namespace Sys2Proof.Machine

/-- The eight lines of G (R78) on words, one write after the other, for any registers, distinct or not. -/
def wordMix (a b c d : Fin 16) (x y : Word) (v : Vector Word 16) : Vector Word 16 :=
  let v := v.set a (v[a] + v[b] + x)
  let v := v.set d (rotr (v[d] ^^^ v[a]) 32)
  let v := v.set c (v[c] + v[d])
  let v := v.set b (rotr (v[b] ^^^ v[c]) 24)
  let v := v.set a (v[a] + v[b] + y)
  let v := v.set d (rotr (v[d] ^^^ v[a]) 16)
  let v := v.set c (v[c] + v[d])
  v.set b (rotr (v[b] ^^^ v[c]) 63)

/-- For distinct registers the eight writes come to four. -/
theorem wordMix_eq {a b c d : Fin 16} (h : distinctRegs a b c d = true) (x y : Word) (v : Vector Word 16) :
    wordMix a b c d x y v = scalarMix a b c d x y v := by
  simp only [distinctRegs, Bool.and_eq_true, bne_iff_ne, ne_eq] at h
  obtain ⟨⟨⟨⟨⟨hab, hac⟩, had⟩, hbc⟩, hbd⟩, hcd⟩ := h
  have n : ∀ {p q : Fin 16}, ¬ p = q → ¬ (p : Nat) = q := fun h h' => h (Fin.ext h')
  have r : ∀ {p q : Fin 16}, ¬ p = q → ¬ (q : Nat) = p := fun h h' => h (Fin.ext h'.symm)
  ext i hi : 1
  simp only [wordMix, scalarMix, Fin.getElem_fin, Vector.getElem_set, n hab, n hac, n had, n hbc, n hbd, n hcd, r hab,
    r hac, r had, r hbc, r hbd, r hcd, if_true, if_false]
  by_cases h1 : (a : Nat) = i
  · subst h1
    simp [r hab, r hac, r had]
  by_cases h2 : (b : Nat) = i
  · subst h2
    simp [r hbc, r hbd]
  by_cases h3 : (c : Nat) = i
  · subst h3
    simp [n hbc, r hcd]
  by_cases h4 : (d : Nat) = i
  · subst h4
    simp [n hcd, n hbd]
  · simp [h1, h2, h3, h4]

/-- Writing a vector word writes lane j of it in lane j. -/
theorem lane16_set (v : VFile) (k : Fin 16) (x : VecWord) (j : Nat) :
    lane16 (v.set k x) j = (lane16 v j).set k (laneOf x j) := by
  ext i hi : 1
  rw [getElem_lane16, Vector.getElem_set, Vector.getElem_set, getElem_lane16]
  split <;> rfl

/-- f = 1 complements the IV word of V[14] (R95, R103). -/
theorem iv_six_xor_ones : iv[6] ^^^ ones = ~~~ iv[6] := by decide

section

variable {lanes j : Nat} (hj : j < lanes)
include hj

/-- A line `V[p] <- V[p] + V[q] + z` in lane j, and the shape it keeps. -/
theorem lane16_addLine {v : VFile} (hv : FileShaped lanes v) (p q : Fin 16) {z : VecWord} (hz : z.length = lanes) :
    FileShaped lanes (v.set p (vadd (vadd v[p] v[q]) z)) ∧
      lane16 (v.set p (vadd (vadd v[p] v[q]) z)) j =
        (lane16 v j).set p ((lane16 v j)[p] + (lane16 v j)[q] + laneOf z j) := by
  have hp : v[p.val].length = lanes := hv p p.2
  have hq : v[q.val].length = lanes := hv q q.2
  refine ⟨hv.set p p.2 (by simp [hp, hq, hz]), ?_⟩
  rw [lane16_set, laneOf_vadd (by simp [hp, hq, hj]) (by simp [hz, hj]), laneOf_vadd (by simp [hp, hj]) (by simp [hq, hj])]
  simp

/-- A line `V[p] <- V[p] + V[q]` in lane j, and the shape it keeps. -/
theorem lane16_add {v : VFile} (hv : FileShaped lanes v) (p q : Fin 16) :
    FileShaped lanes (v.set p (vadd v[p] v[q])) ∧
      lane16 (v.set p (vadd v[p] v[q])) j = (lane16 v j).set p ((lane16 v j)[p] + (lane16 v j)[q]) := by
  have hp : v[p.val].length = lanes := hv p p.2
  have hq : v[q.val].length = lanes := hv q q.2
  refine ⟨hv.set p p.2 (by simp [hp, hq]), ?_⟩
  rw [lane16_set, laneOf_vadd (by simp [hp, hj]) (by simp [hq, hj])]
  simp

/-- A line `V[p] <- rotr(V[p] ^ V[q], n)` in lane j, and the shape it keeps. -/
theorem lane16_xorRotr {v : VFile} (hv : FileShaped lanes v) (p q : Fin 16) (n : RotDist) :
    FileShaped lanes (v.set p (vrotr (vxor v[p] v[q]) n)) ∧
      lane16 (v.set p (vrotr (vxor v[p] v[q]) n)) j =
        (lane16 v j).set p (rotr ((lane16 v j)[p] ^^^ (lane16 v j)[q]) (distance n)) := by
  have hp : v[p.val].length = lanes := hv p p.2
  have hq : v[q.val].length = lanes := hv q q.2
  refine ⟨hv.set p p.2 (by simp [hp, hq]), ?_⟩
  rw [lane16_set, laneOf_vrotr (by simp [hp, hq, hj]), laneOf_vxor (by simp [hp, hj]) (by simp [hq, hj])]
  simp

/-- Lane j of G is the eight lines on lane j (R83). -/
theorem lane16_gMix_lines {v : VFile} (hv : FileShaped lanes v) {x y : VecWord} (hx : x.length = lanes)
    (hy : y.length = lanes) (a b c d : Fin 16) :
    lane16 (gMix a b c d x y v) j = wordMix a b c d (laneOf x j) (laneOf y j) (lane16 v j) := by
  have h1 := lane16_addLine hj hv a b hx
  have h2 := lane16_xorRotr hj h1.1 d a .r32
  have h3 := lane16_add hj h2.1 c d
  have h4 := lane16_xorRotr hj h3.1 b c .r24
  have h5 := lane16_addLine hj h4.1 a b hy
  have h6 := lane16_xorRotr hj h5.1 d a .r16
  have h7 := lane16_add hj h6.1 c d
  have h8 := lane16_xorRotr hj h7.1 b c .r63
  unfold gMix
  dsimp only
  rw [h8.2, h7.2, h6.2, h5.2, h4.2, h3.2, h2.2, h1.2]
  rfl

/-- Lane j of G on distinct registers is the scalar G (R77, R83). -/
theorem lane16_gMix {v : VFile} (hv : FileShaped lanes v) {x y : VecWord} (hx : x.length = lanes)
    (hy : y.length = lanes) {a b c d : Fin 16} (h : distinctRegs a b c d = true) :
    lane16 (gMix a b c d x y v) j = scalarMix a b c d (laneOf x j) (laneOf y j) (lane16 v j) := by
  rw [lane16_gMix_lines hj hv hx hy, wordMix_eq h]

/-- Lane j of one scheduled call of a round (R97). -/
theorem lane16_scheduledMix {m : MFile} (hm : FileShaped lanes m) {v : VFile} (hv : FileShaped lanes v) (r : Fin 12)
    (g : Fin 8) {a b c d : Fin 16} (h : distinctRegs a b c d = true) :
    lane16 (scheduledMix m r g a b c d v) j =
      scalarMix a b c d (lane16 m j)[schedIndexX r g] (lane16 m j)[schedIndexY r g] (lane16 v j) := by
  have hx : (schedPair m r g).1.length = lanes := hm _ (schedIndexX r g).2
  have hy : (schedPair m r g).2.length = lanes := hm _ (schedIndexY r g).2
  unfold scheduledMix
  rw [lane16_gMix hj hv hx hy h]
  congr 1
  · exact (getElem_lane16 m j _ _).symm
  · exact (getElem_lane16 m j _ _).symm

/-- Lane j of a round is the scalar round (R97). -/
theorem lane16_roundFile {m : MFile} (hm : FileShaped lanes m) {v : VFile} (hv : FileShaped lanes v) (r : Fin 12) :
    lane16 (roundFile m r v) j = scalarRound (lane16 m j) r (lane16 v j) := by
  have h0 := hm.scheduledMix hv r 0 0 4 8 12
  have h1 := hm.scheduledMix h0 r 1 1 5 9 13
  have h2 := hm.scheduledMix h1 r 2 2 6 10 14
  have h3 := hm.scheduledMix h2 r 3 3 7 11 15
  have h4 := hm.scheduledMix h3 r 4 0 5 10 15
  have h5 := hm.scheduledMix h4 r 5 1 6 11 12
  have h6 := hm.scheduledMix h5 r 6 2 7 8 13
  unfold roundFile
  dsimp only
  rw [lane16_scheduledMix hj hm h6 r 7 (by decide), lane16_scheduledMix hj hm h5 r 6 (by decide),
    lane16_scheduledMix hj hm h4 r 5 (by decide), lane16_scheduledMix hj hm h3 r 4 (by decide),
    lane16_scheduledMix hj hm h2 r 3 (by decide), lane16_scheduledMix hj hm h1 r 2 (by decide),
    lane16_scheduledMix hj hm h0 r 1 (by decide), lane16_scheduledMix hj hm hv r 0 (by decide)]
  rfl

theorem lane16_rounds {m : MFile} (hm : FileShaped lanes m) {v : VFile} (hv : FileShaped lanes v)
    (rs : List (Fin 12)) :
    lane16 (rs.foldl (fun v r => roundFile m r v) v) j =
      rs.foldl (fun v r => scalarRound (lane16 m j) r v) (lane16 v j) := by
  induction rs generalizing v with
  | nil => rfl
  | cons r rs ih => rw [List.foldl_cons, List.foldl_cons, ih (hm.roundFile hv r), lane16_roundFile hj hm hv]

/-- Lane j of VINIT (R95). -/
theorem lane16_vinitFile (h : HFile) (t : Word) (f : Bool) :
    lane16 (vinitFile lanes h t f) j = scalarVinit (laneH h j) t f := by
  have hz : ∀ x : Word, laneOf (splat lanes x) j = x := fun x => laneOf_splat hj x
  ext i hi : 1
  rw [getElem_lane16]
  unfold vinitFile scalarVinit
  interval_cases i <;> simp [hz]
  cases f
  · simp
  · simpa using iv_six_xor_ones

/-- Lane j of the working registers that a compression leaves (R96). -/
theorem lane16_compressedV {m : MFile} (hm : FileShaped lanes m) {h : HFile} (hh : FileShaped lanes h) (t : Word)
    (f : Bool) :
    lane16 (compressedV lanes h m t f) j =
      (List.finRange 12).foldl (fun v r => scalarRound (lane16 m j) r v) (scalarVinit (laneH h j) t f) := by
  unfold compressedV allRounds
  rw [lane16_rounds hj hm (hh.vinitFile t f), lane16_vinitFile hj]

/-- Lane j of FEED (R98). -/
theorem laneOf_feedFile {h : HFile} (hh : FileShaped lanes h) {v : VFile} (hv : FileShaped lanes v) (k : Nat)
    (hk : k < 8) :
    laneOf (feedFile h v)[k] j = laneOf h[k] j ^^^ laneOf v[k] j ^^^ laneOf v[k + 8] j := by
  have h1 := hh k hk
  have h2 := hv k (by omega)
  have h3 := hv (k + 8) (by omega)
  unfold feedFile
  rw [getElem_tabulate, laneOf_vxor (by simp [h1, h2, hj]) (by simp [h3, hj]),
    laneOf_vxor (by simp [h1, hj]) (by simp [h2, hj])]

/-- Lane j of a compression is the scalar compression of lane j (R93). -/
theorem laneH_compressedH {m : MFile} (hm : FileShaped lanes m) {h : HFile} (hh : FileShaped lanes h) (t : Word)
    (f : Bool) : laneH (compressedH lanes h m t f) j = scalarCompress (laneH h j) (lane16 m j) t f := by
  have hv := hh.compressedV hm t f
  unfold scalarCompress
  rw [← lane16_compressedV hj hm hh t f]
  unfold compressedH
  generalize compressedV lanes h m t f = v at *
  ext i hi : 1
  rw [getElem_laneH, laneOf_feedFile hj hh hv i hi]
  simp

/-- Lane j of the state that INIT leaves (R108). -/
theorem laneH_initFile : laneH (initFile lanes) j = scalarInit := by
  have hz : ∀ x : Word, laneOf (splat lanes x) j = x := fun x => laneOf_splat hj x
  ext i hi : 1
  rw [getElem_laneH]
  unfold initFile scalarInit
  interval_cases i <;> simp [hz]

end

end Sys2Proof.Machine
end

