-- ==== Sys2Proof/Laws/Memory.lean ====
section
/-! SUPPORT. The laws of the message memory: read after write, and that a write keeps the canonical form. -/

namespace Sys2Proof.Machine

@[simp] theorem Memory.read_nil (a : Nat) : Memory.read [] a = none := rfl

theorem Memory.read_cons (c : MsgCell) (m : Memory) (a : Nat) :
    Memory.read (c :: m) a = if a = c.1 then some c.2 else Memory.read m a := rfl

/-- Read after write: the cell written holds the word, every other cell what it held. -/
theorem Memory.read_write (m : Memory) (a b : Nat) (w : Word) :
    Memory.read (Memory.write m a w) b = if b = a then some w else Memory.read m b := by
  induction m with
  | nil => simp [Memory.write, Memory.read_cons]
  | cons c m ih =>
    unfold Memory.write
    by_cases h₁ : a < c.1
    · simp only [h₁, if_true, Memory.read_cons]
    · by_cases h₂ : a = c.1
      · subst h₂
        by_cases h₃ : b = c.1 <;> simp [Memory.read_cons, h₃]
      · simp only [h₁, h₂, if_false, Memory.read_cons, ih]
        by_cases h₃ : b = a
        · subst h₃; simp [h₂]
        · simp [h₃]

@[simp] theorem Memory.read_write_self (m : Memory) (a : Nat) (w : Word) :
    Memory.read (Memory.write m a w) a = some w := by simp [Memory.read_write]

theorem Memory.read_write_ne (m : Memory) {a b : Nat} (w : Word) (h : b ≠ a) :
    Memory.read (Memory.write m a w) b = Memory.read m b := by simp [Memory.read_write, h]

/-- The cells after a write are the cells before it and the one written. -/
theorem Memory.mem_write {m : Memory} {a : Nat} {w : Word} {c : MsgCell} (h : c ∈ Memory.write m a w) :
    c = (a, w) ∨ c ∈ m := by
  induction m with
  | nil => simpa [Memory.write] using h
  | cons d m ih =>
    unfold Memory.write at h
    split_ifs at h with h₁ h₂
    · simpa using h
    · rcases List.mem_cons.1 h with h | h
      · exact .inl h
      · exact .inr (List.mem_cons_of_mem _ h)
    · rcases List.mem_cons.1 h with h | h
      · exact .inr (by simp [h])
      · rcases ih h with h | h
        · exact .inl h
        · exact .inr (List.mem_cons_of_mem _ h)

/-- Every memory operation keeps the canonical form: offsets strictly rising. -/
theorem Memory.write_wf {m : Memory} (hm : Memory.wf m) (a : Nat) (w : Word) : Memory.wf (Memory.write m a w) := by
  induction m with
  | nil => simp [Memory.write, Memory.wf]
  | cons c m ih =>
    obtain ⟨hc, hm⟩ := List.pairwise_cons.1 hm
    unfold Memory.write
    split_ifs with h₁ h₂
    · refine List.pairwise_cons.2 ⟨fun d hd => ?_, List.pairwise_cons.2 ⟨hc, hm⟩⟩
      rcases List.mem_cons.1 hd with rfl | hd
      · exact h₁
      · exact lt_trans h₁ (hc d hd)
    · exact List.pairwise_cons.2 ⟨fun d hd => h₂ ▸ hc d hd, hm⟩
    · refine List.pairwise_cons.2 ⟨fun d hd => ?_, ih hm⟩
      rcases Memory.mem_write hd with rfl | hd
      · exact lt_of_le_of_ne (not_lt.1 h₁) (Ne.symm h₂)
      · exact hc d hd

theorem Memory.nil_wf : Memory.wf [] := List.Pairwise.nil

/-- The written word is in the memory it is read from. -/
theorem Memory.mem_of_read {m : Memory} {a : Nat} {w : Word} (h : Memory.read m a = some w) : (a, w) ∈ m := by
  induction m with
  | nil => simp at h
  | cons c m ih =>
    rw [Memory.read_cons] at h
    split_ifs at h with h₁
    · obtain rfl : c.2 = w := by simpa using h
      subst h₁
      exact List.mem_cons_self
    · exact List.mem_cons_of_mem _ (ih h)

/-- Two cells of the message memory share an offset only when they are one cell, for lanes below 8 (R48). -/
theorem msgOffset_inj {j k j' k' : Nat} (hj : j < 8) (hj' : j' < 8) :
    msgOffset j k = msgOffset j' k' ↔ j = j' ∧ k = k' := by
  unfold msgOffset
  omega

end Sys2Proof.Machine
end

