-- ==== Sys2Proof/Laws/Mixer.lean ====
section
/-! SUPPORT. G on the registers (spec/40_lane_mixer.md R77, R78): which it writes, from which, and how its lines run as
instructions. -/

namespace Sys2Proof.Machine

/-- Four registers written with four vector words. -/
def setFour (a b c d : Fin 16) (p q r t : VecWord) (v : VFile) : VFile := (((v.set a p).set b q).set c r).set d t

theorem setFour_getElem_of_ne {a b c d k : Fin 16} (ha : k ≠ a) (hb : k ≠ b) (hc : k ≠ c) (hd : k ≠ d)
    (p q r t : VecWord) (v : VFile) : (setFour a b c d p q r t v)[k] = v[k] := by
  have n : ∀ {p : Fin 16}, k ≠ p → ¬ (p : Nat) = k := fun h h' => h (Fin.ext h'.symm)
  simp [setFour, n ha, n hb, n hc, n hd]

/-- G on four distinct registers writes these four, each as a function of these four and the message words (R77). -/
theorem gMix_eq_setFour {a b c d : Fin 16} (x y : VecWord) (h : distinctRegs a b c d = true) :
    ∃ A B C D : VecWord → VecWord → VecWord → VecWord → VecWord, ∀ v : VFile,
      gMix a b c d x y v = setFour a b c d (A v[a] v[b] v[c] v[d]) (B v[a] v[b] v[c] v[d]) (C v[a] v[b] v[c] v[d])
        (D v[a] v[b] v[c] v[d]) v := by
  simp only [distinctRegs, Bool.and_eq_true, bne_iff_ne, ne_eq] at h
  obtain ⟨⟨⟨⟨⟨hab, hac⟩, had⟩, hbc⟩, hbd⟩, hcd⟩ := h
  have n : ∀ {p q : Fin 16}, ¬ p = q → ¬ (p : Nat) = q := fun h h' => h (Fin.ext h')
  have r : ∀ {p q : Fin 16}, ¬ p = q → ¬ (q : Nat) = p := fun h h' => h (Fin.ext h'.symm)
  let a1 := fun a b _c _d : VecWord => vadd (vadd a b) x
  let d1 := fun a b c d : VecWord => vrotr (vxor d (a1 a b c d)) .r32
  let c1 := fun a b c d : VecWord => vadd c (d1 a b c d)
  let b1 := fun a b c d : VecWord => vrotr (vxor b (c1 a b c d)) .r24
  let a2 := fun a b c d : VecWord => vadd (vadd (a1 a b c d) (b1 a b c d)) y
  let d2 := fun a b c d : VecWord => vrotr (vxor (d1 a b c d) (a2 a b c d)) .r16
  let c2 := fun a b c d : VecWord => vadd (c1 a b c d) (d2 a b c d)
  let b2 := fun a b c d : VecWord => vrotr (vxor (b1 a b c d) (c2 a b c d)) .r63
  refine ⟨a2, b2, c2, d2, fun v => ?_⟩
  ext i hi : 1
  simp only [gMix, setFour, a1, b1, c1, d1, a2, b2, c2, d2, Fin.getElem_fin, Vector.getElem_set, n hab, n hac, n had,
    n hbc, n hbd, n hcd, r hab, r hac, r had, r hbc, r hbd, r hcd, if_true, if_false]
  by_cases h1 : (a : Nat) = i
  · subst h1
    simp [r hab, r hac, r had]
  by_cases h2 : (b : Nat) = i
  · subst h2
    simp [r hbc, r hbd]
  by_cases h3 : (c : Nat) = i
  · subst h3
    simp [n hbc, r hcd]
  by_cases h4 : (d : Nat) = i
  · subst h4
    simp [n hcd, n hbd]
  · simp [h1, h2, h3, h4]

/-- A message operand does not look at V (R77). -/
theorem readSrc_of_isMessage {z : VSrc} (hz : z.isMessage = true) (s : State) (v : VFile) :
    State.readSrc { s with v := v } z = s.readSrc z := by
  cases z with
  | m k => rfl
  | schedX => rfl
  | schedY => rfl
  | v k => cases hz
  | h k => cases hz
  | splat w => cases hz

theorem setV_setV (s : State) (k : Fin 16) (x y : VecWord) : (s.setV k x).setV k y = s.setV k y := by
  simp [State.setV]

theorem setV_getElem (s : State) (k : Fin 16) (x : VecWord) : (s.setV k x).v[k] = x := by
  simp [State.setV]

theorem exec_add_v (s : State) (k p : Fin 16) (z : VSrc) :
    exec (.add (.v k) (.v p) z) s = .next (s.setV k (vadd s.v[p] (s.readSrc z))) := rfl

theorem exec_xor_v (s : State) (k p q : Fin 16) :
    exec (.xor (.v k) (.v p) (.v q)) s = .next (s.setV k (vxor s.v[p] s.v[q])) := rfl

theorem exec_rotr_v (s : State) (k p : Fin 16) (n : RotDist) :
    exec (.rotr (.v k) (.v p) n) s = .next (s.setV k (vrotr s.v[p] n)) := rfl

end Sys2Proof.Machine
end

