-- ==== Sys2Proof/Laws/PerInstr.lean ====
section
/-! SUPPORT. A statement about every instruction as syntax, one lemma for each constructor. -/

namespace Sys2Proof.Laws.HostEncoding

/-- A host command has a command word, which its decoding gives back; an internal operation has none
(spec/30_encoding.md R64, R67). -/
def Statement (i : Instr) : Prop :=
  match encode i with
  | some w => i.isHostCommand = true ∧ (decode w).toInstr? = some i
  | none => i.isHostCommand = false

theorem nop : Statement .nop := ⟨rfl, by decide⟩

theorem init : Statement .init := ⟨rfl, by decide⟩

theorem compress (f : Bool) : Statement (.compress f) := by cases f <;> exact ⟨rfl, by decide⟩

theorem hash : Statement .hash := ⟨rfl, by decide⟩

theorem add (d : VDst) (a b : VSrc) : Statement (.add d a b) := rfl

theorem xor (d : VDst) (a b : VSrc) : Statement (.xor d a b) := rfl

theorem rotr (d : VDst) (a : VSrc) (n : RotDist) : Statement (.rotr d a n) := rfl

theorem g (a b c d : Fin 16) (x y : VSrc) : Statement (.g a b c d x y) := rfl

theorem sched (r : Fin 12) (c : Fin 8) : Statement (.sched r c) := rfl

theorem vinit (t : Word) (f : Bool) : Statement (.vinit t f) := rfl

theorem round (r : Fin 12) : Statement (.round r) := rfl

theorem feed : Statement .feed := rfl

theorem build (n : Nat) : Statement (.build n) := rfl

end Sys2Proof.Laws.HostEncoding
end

