-- ==== Sys2Proof/Tests/Slice0.lean ====
section
/-! SUPPORT. The model's own tests. Expected results are the spec's: spec/30_encoding.md R71 and the vectors of
spec/95_test_vectors.md, each test names which. Then one theorem for every obligation with hypotheses, which shows that a
concrete state and operands meet them, clause by clause. -/

namespace Sys2Proof.Tests

open Sys2Proof.Machine

/- One theorem after the other: the many kernel checks at once would each hold a thread. -/
set_option Elab.async false

/-! ### Small states -/

/-- The state that an outcome goes on with. -/
def after : Host.Outcome State Fault Refusal → Option State
  | .next s => some s
  | .fault _ => none
  | .refused _ => none

/-- A block of `lanes` lanes and 32 message words per lane, right after reset. -/
def block (lanes : Nat) : State := State.resetWith { lanes := lanes, msgWords := 32 }

/-- The block about to see one event. -/
def facing (e : Event) (s : State) : State := { s with schedule := [e] }

/-- A block with INIT pending. -/
def busyBlock : State := (block 2).accept .init

/-- Two lanes with one written message word each (vector H7): lane 0 eight zero bytes, lane 1 the bytes 01 to 08. -/
def twoLanes : State :=
  ({ block 2 with len := 1 }.writeMsg 0 0 0).writeMsg 1 0 0x0807060504030201

/-- Working registers 0 to 3 of one or more lanes, and two message words, for G. -/
def mixing (lanes : Nat) (a b c d x y : VecWord) : State :=
  (((((block lanes).setV 0 a).setV 1 b).setV 2 c).setV 3 d).setM 0 x |>.setM 1 y

/-- V[0..3] after G(0, 1, 2, 3, M[0], M[1]). -/
def mixed (s : State) : Option (List VecWord) :=
  (after (exec (.g 0 1 2 3 (.m 0) (.m 1)) s)).map fun t => [t.v[0], t.v[1], t.v[2], t.v[3]]

/-- The datum that the next step's host read returns. -/
def datum (s : State) : Option Word := (after (step s)).bind (·.readData)

/-- The model fault that the next step records. -/
def recorded (s : State) : Option Fault := (after (step s)).bind (·.faulted)

/-- STATUS after the next step. -/
def statusAfter (s : State) : Option Word := (after (step s)).map (·.statusWord)

/-! ### Well-formedness: an ill-formed term for each check -/

theorem test_wf_g : Instr.wellFormed (.g 0 4 8 12 (.m 0) (.m 1)) = true := by decide
theorem test_wf_g_equal_registers : Instr.wellFormed (.g 0 4 8 0 (.m 0) (.m 1)) = false := by decide
theorem test_wf_g_x_no_message_word : Instr.wellFormed (.g 0 4 8 12 (.v 1) (.m 1)) = false := by decide
theorem test_wf_g_y_no_message_word : Instr.wellFormed (.g 0 4 8 12 (.m 0) (.splat 3)) = false := by decide
theorem test_wf_g_same_message_word : Instr.wellFormed (.g 0 4 8 12 (.m 5) (.m 5)) = false := by decide
theorem test_wf_build_last : Instr.wellFormed (.build 2097151) = true := by decide
theorem test_wf_build_beyond : Instr.wellFormed (.build 2097152) = false := by decide

/-! ### Command words, bit by bit from R61 and R64 -/

theorem test_decode_nop : decode 0b0000 = .nop := by decide
theorem test_decode_init : decode 0b0001 = .init := by decide
theorem test_decode_compress : decode 0b0_0000_0010 = .compress false := by decide
theorem test_decode_compress_final : decode 0b1_0000_0010 = .compress true := by decide
theorem test_decode_hash : decode 0b0011 = .hash := by decide
theorem test_decode_flag_outside_compress : decode 0b1_0000_0001 = .reservedBits := by decide
theorem test_decode_bit_63 : decode 0x8000000000000002 = .reservedBits := by decide
theorem test_decode_opcode_before_reserved : decode 0xFFFFFFFFFFFFFFFF = .badOpcode := by decide
theorem test_encode_compress_final : encode (.compress true) = some 0x102 := by decide
theorem test_table_word : decodeTableWord 64 0x102 = some (.compress true) := by decide
theorem test_table_word_refused : decodeTableWord 64 0x12 = none := by decide

/-! ### The placed command runs in the very next step -/

/-- Section 2.5: the INIT state, in every one of the four lanes. -/
theorem test_placed_init :
    (after (step (State.reset.withFetchWord 64 1))).map (fun t => (t.h[0], t.h[7], t.statusWord)) =
      some (List.replicate 4 0x6A09E667F2BDC928, List.replicate 4 0x5BE0CD19137E2179, 0) := by decide +kernel

/-- C4: COMPRESS right after reset. -/
theorem test_placed_compress :
    (after (step (State.reset.withFetchWord 64 2))).map (fun t => (t.h[0], t.h[7], t.bcount)) =
      some (List.replicate 4 0x4D3F506019115AC7, List.replicate 4 0xEE2E6936BDA0EBC9, 1) := by decide +kernel

/-- H1: the empty message. -/
theorem test_placed_hash :
    (after (step (State.reset.withFetchWord 64 3))).map (fun t => (t.h[0], t.h[3], t.statusWord)) =
      some (List.replicate 4 0xB243E526C051570E, List.replicate 4 0xA8E32FF1CD45ABFA, 2) := by decide +kernel

theorem test_placed_nop : statusAfter (State.reset.withFetchWord 64 0) = some 0 := by decide +kernel

theorem test_placed_bad_opcode : statusAfter (State.reset.withFetchWord 64 7) = some 0x20 := by decide +kernel

/-! ### Host commands -/

/-- Section 2.7: STATUS 0x20 before NOP. -/
theorem test_nop : (after (exec .nop { block 1 with err := .badOpcode })).map (·.statusWord) = some 0 := by
  decide +kernel

theorem test_init_clears_final :
    (after (exec .init { block 1 with isFinal := true, bcount := 5, t0 := 9 })).map
      (fun t => (t.h[0], t.isFinal, t.bcount, t.t0)) = some ([0x6A09E667F2BDC928], false, 0, 9) := by decide +kernel

/-- C3: M[k] = k, t = 128, f = 0, from the INIT state. -/
theorem test_compress_c3 :
    (after (exec (.compress false)
        { block 1 with h := initFile 1, m := tabulate 16 fun k => [BitVec.ofNat 64 k.val], t0 := 128 })).map
      (fun t => (t.h.toList.flatten, t.isFinal, t.bcount)) =
      some ([0xB8F55E837CD843C9, 0x1D3B1630012E2C14, 0x773827E15A1089B7, 0xBC1FEE80159630B6, 0x112ACF5B5FCF4E5F,
        0x4917D79DBA5CB7C7, 0xD92BF08F9937A66E, 0x0BF34B8686DE231D], false, 1) := by decide +kernel

/-- C1: V after round 11 and H after FEED, with f = 1. -/
theorem test_compress_c1 :
    (after (exec (.compress true) { block 1 with h := initFile 1 })).map
      (fun t => (t.v[0], t.v[15], t.h[7], t.isFinal)) =
      some ([0x48476CC9379299A4], [0xF39944AD61211EDE], [0x93458E01853D6D1C], true) := by decide +kernel

/-- H7: two lanes that differ. -/
theorem test_hash_h7 :
    (after (exec .hash twoLanes)).map (fun t => (t.h[0], t.h[7], t.t0, t.bcount, t.btotal, t.statusWord)) =
      some ([0x0A9BB2E6197AE481, 0xFC19531FC24B2DEA], [0x356A9083F0E76418, 0x9D8196D7815A27F6], 8, 1, 1, 2) := by
  decide +kernel

/-- H5: 136 zero bytes, two blocks. -/
theorem test_hash_h5 :
    (after (exec .hash
        { block 1 with len := 17, msg := (List.range 17).map fun k => (msgOffset 0 k, 0) })).map
      (fun t => (t.h[0], t.h[7], t.t0, t.bcount)) =
      some ([0x56BAEC1719FEDDB2], [0x1D516B331EA9E172], 136, 2) := by decide +kernel

/-! ### Internal operations -/

/-- Section 2.1, the first two rows of ADD, one in each lane. -/
theorem test_add :
    (after (exec (.add (.v 2) (.v 0) (.v 1))
        (((block 2).setV 0 [0xFFFFFFFFFFFFFFFF, 0x8000000000000000]).setV 1 [1, 0x8000000000000000]))).map
      (fun t => t.v[2]) = some [0, 0] := by decide +kernel

theorem test_add_in_place :
    (after (exec (.add (.h 0) (.h 0) (.splat 0xFEDCBA9876543210)) ((block 1).setH 0 [0x0123456789ABCDEF]))).map
      (fun t => t.h[0]) = some [0xFFFFFFFFFFFFFFFF] := by decide +kernel

theorem test_xor :
    (after (exec (.xor (.v 0) (.v 0) (.splat 0x00FF)) ((block 2).setV 0 [0x0F0F, 0x00FF]))).map (fun t => t.v[0]) =
      some [0x0FF0, 0] := by decide +kernel

theorem test_rotr_24 :
    (after (exec (.rotr (.v 0) (.m 3) .r24) ((block 1).setM 3 [0x0123456789ABCDEF]))).map (fun t => t.v[0]) =
      some [0xABCDEF0123456789] := by decide +kernel

theorem test_rotr_63 :
    (after (exec (.rotr (.v 0) (.v 0) .r63) ((block 3).setV 0 [0x0123456789ABCDEF, 1, 0x8000000000000000]))).map
      (fun t => t.v[0]) = some [0x02468ACF13579BDE, 2, 1] := by decide +kernel

/-- Section 2.2, rows 2 and 3, one in each lane. -/
theorem test_g_rows_2_and_3 :
    mixed (mixing 2 [1, ones] [2, ones] [3, ones] [4, ones] [5, ones] [6, ones]) =
      some [[0x0000010000000C0E, 0x000000FFFFFFFDFC], [0x181C021802181806, 0xFBF801FBFE0403FD],
        [0x0C0E000C010C0003, 0xFDFC000200FDFFFE], [0x0C0E0000010C0000, 0xFDFC000000FDFFFF]] := by decide +kernel

/-- Section 2.2, row 4. -/
theorem test_g_row_4 :
    mixed (mixing 1 [0x6A09E667F3BCC908] [0x510E527FADE682D1] [0x6A09E667F3BCC908] [0x510E527FADE682D1] [0] [0]) =
      some [[0xF0C9AA0EE3A05B49], [0x3B21B5B40248644D], [0xA821ABFD40D93D56], [0x31D1FC8C630609B6]] := by
  decide +kernel

/-- M[k] = k. -/
def numbered : State := { block 1 with m := tabulate 16 fun k => [BitVec.ofNat 64 k.val] }

/-- Section 2.3: (1, 4) is (M[1], M[12]). -/
theorem test_sched_1_4 : (after (exec (.sched 1 4) numbered)).map (fun t => (t.schedX, t.schedY)) = some ([1], [12]) := by
  decide +kernel

/-- Section 2.3: (11, 7) is (M[5], M[3]). -/
theorem test_sched_11_7 : (after (exec (.sched 11 7) numbered)).map (fun t => (t.schedX, t.schedY)) = some ([5], [3]) := by
  decide +kernel

/-- C1 after VINIT, with a byte offset added to show where it goes. -/
theorem test_vinit :
    (after (exec (.vinit 1 true) { block 1 with h := initFile 1 })).map (fun t => [t.v[0], t.v[8], t.v[12], t.v[13], t.v[14], t.v[15]]) =
      some [[0x6A09E667F2BDC928], [0x6A09E667F3BCC908], [0x510E527FADE682D0], [0x9B05688C2B3E6C1F],
        [0xE07C265404BE4294], [0x5BE0CD19137E2179]] := by decide +kernel

/-- C1 after round 0. -/
theorem test_round_0 :
    (after (exec (.round 0) { block 1 with v := vinitFile 1 (initFile 1) 0 true })).map
      (fun t => t.v.toList.flatten) =
      some [0x86B7DBAB7CA75BF8, 0x242B1D6D88A114CD, 0x48467D7DE104E773, 0x80C0105730BDA349, 0xB4B39182F3E840BB,
        0xD31E26F1DC307397, 0x480631B6671E871B, 0x75413B96D0DA78A1, 0xAEAFD2C3A6F904C6, 0x29519BF39D8771B1,
        0x412B7DE82BEB724A, 0x841FCFAC0A2DEF04, 0xACB009F07C9DDD5E, 0x3186FBAC5486F07D, 0x5D55D0CDB48EC597,
        0xC39F4DA0D93200EA] := by decide +kernel

/-- R98 on small numbers: 1 ^ 6 ^ 8. -/
theorem test_feed :
    (after (exec .feed ((((block 1).setH 3 [1]).setV 3 [6]).setV 11 [8]))).map (fun t => t.h[3]) = some [15] := by
  decide +kernel

/-- Section 2.6: L = 17, block 1 holds one message word and zeros. -/
theorem test_build_17 :
    (after (exec (.build 1)
        { numbered with len := 17, msg := (List.range 17).map fun k => (msgOffset 0 k, BitVec.ofNat 64 (100 + k)) })).map
      (fun t => t.m.toList.flatten) = some (116 :: List.replicate 15 0) := by decide +kernel

/-! ### The host bus, section 2.8 -/

theorem test_read_id : datum (facing (.busRead 0x000 8) State.reset) = some 0x4232425700000001 := by decide +kernel
theorem test_read_config : datum (facing (.busRead 0x008 8) State.reset) = some 0x0000040000040C04 := by decide +kernel
theorem test_read_h_1_1 :
    datum (facing (.busRead 0x148 8) (State.reset.setH 1 [10, 11, 12, 13])) = some 11 := by decide +kernel
theorem test_read_m_3_3 :
    datum (facing (.busRead 0x4D8 8) (State.reset.setM 3 [10, 11, 12, 13])) = some 13 := by decide +kernel
theorem test_read_msg_1_1 :
    datum (facing (.busRead 0x80000048 8) (State.reset.writeMsg 1 1 77)) = some 77 := by decide +kernel
theorem test_read_unwritten :
    recorded (facing (.busRead 0x80000048 8) State.reset) = some (.uninitRead 0x80000048) := by decide +kernel
theorem test_read_lane_7 :
    recorded (facing (.busRead 0x138 8) State.reset) = some (.busFault .read 0x138 8) := by decide +kernel
theorem test_read_past_window :
    recorded (facing (.busRead 0x80010000 8) State.reset) = some (.busFault .read 0x80010000 8) := by decide +kernel
theorem test_read_misaligned :
    recorded (facing (.busRead 0x004 8) State.reset) = some (.busFault .read 0x004 8) := by decide +kernel
theorem test_read_size_4 :
    recorded (facing (.busRead 0x018 4) State.reset) = some (.busFault .read 0x018 4) := by decide +kernel
theorem test_write_h :
    recorded (facing (.busWrite 0x100 8 1) State.reset) = some (.busFault .write 0x100 8) := by decide +kernel
theorem test_write_len :
    (after (step (facing (.busWrite 0x020 8 5) State.reset))).map (fun t => (t.len, t.statusWord)) = some (5, 0) := by
  decide +kernel
theorem test_write_len_busy :
    (after (step (facing (.busWrite 0x020 8 5) busyBlock))).map (fun t => (t.len, t.statusWord)) = some (0, 0x51) := by
  decide +kernel

/-- Section 2.7: LEN = MSG_WORDS + 1. -/
theorem test_issue_len_range :
    statusAfter (facing (.busWrite 0x010 8 3) { State.reset with len := 1025 }) = some 0x40 := by decide +kernel

/-- Section 2.9: MSG[2][1] unwritten, LEN = 2, all else written. -/
theorem test_uninit_msg :
    recorded { State.reset.accept .hash with
      len := 2, msg := [0, 1, 2, 3, 8, 9, 11].map fun n => (0x80000000 + 8 * n, 0) } = some (.uninitMsg 2 1) := by
  decide +kernel

/-- CONFIG of N = 8, MSG_WORDS = 2^25. -/
theorem test_config_largest : configValue { lanes := 8, msgWords := 33554432 } = 0x0200000000040C08 := by decide
theorem test_refused_configuration : admitted { lanes := 16, msgWords := 64 } = false := by decide

/-- R40's example: the bytes of "Example ". -/
theorem test_message_words :
    messageWords [0x45, 0x78, 0x61, 0x6D, 0x70, 0x6C, 0x65, 0x20] = [0x20656C706D617845] := by decide

/-- Section 2.8: the start of S1's digest. -/
theorem test_digest_bytes : wordBytes 0x74378B15E5230820 = [0x20, 0x08, 0x23, 0xE5, 0x15, 0x8B, 0x37, 0x74] := by
  decide

theorem test_assemble_load : assemble Config.standard 0 (.load 1 2 9) = some [.busWrite 0x80000050 8 9] := by decide
theorem test_assemble_refuses_lane : assemble Config.standard 0 (.rd (.h 0 4)) = none := by decide

/-! ### Witnesses: concrete states and operands that meet the hypotheses of the obligations

The two-lane block has N = 2 and MSG_WORDS = 32. -/

theorem running (s : State) (h : admitted s.cfg = true) (hf : s.faulted = none) : s.Running := ⟨h, hf⟩

/-- The two-lane block, idle or busy, facing one event. -/
def meeting (b : Bool) (e : Event) : State := facing e (if b then busyBlock else block 2)

theorem meeting_running (b : Bool) (e : Event) : (meeting b e).Running := by
  cases b <;> exact ⟨rfl, rfl⟩

theorem meeting_idle (e : Event) : (meeting false e).Idle := rfl

theorem meeting_busy (e : Event) : (meeting true e).busy = true := rfl

theorem meeting_schedule (b : Bool) (e : Event) : (meeting b e).schedule = e :: [] := rfl

theorem block_shaped (n : Nat) : (block n).Shaped := by
  constructor <;> intros <;> simp [block, State.resetWith]

theorem block_inv : (block 2).Inv :=
  ⟨by decide, block_shaped 2, List.Pairwise.nil, (by intro c hc; cases hc), rfl, (by intro h; cases h)⟩

theorem twoLanes_written : twoLanes.MessageWritten := by
  have h : twoLanes.firstUnwritten (List.range twoLanes.len.toNat) = none := by decide +kernel
  intro j k hj hk
  exact firstUnwritten_eq_none.1 h k (by simpa using hk) j hj

theorem twoLanes_shaped : twoLanes.Shaped := (block_shaped 2).congr rfl rfl rfl rfl rfl rfl

/-- IssueChecksInOrder, clause by clause, each with a word or a LEN at the end of its range. -/
theorem witness_IssueChecksInOrder :
    (∀ b w, (meeting b (.busWrite 0x10 8 w)).Running ∧
      (meeting b (.busWrite 0x10 8 w)).schedule = .busWrite 0x10 8 w :: [] ∧
      (meeting b (.busWrite 0x10 8 w)).busy = b) ∧
    4 ≤ (4 : Word).toNat % 16 ∧ 4 ≤ (0xFFFFFFFFFFFFFFFF : Word).toNat % 16 ∧
    ((0x10 : Word).toNat % 16 < 4 ∧ ReservedBitSet 0x10) ∧
    ((0x8000000000000002 : Word).toNat % 16 < 4 ∧ ReservedBitSet 0x8000000000000002) ∧
    ((0x103 : Word).toNat % 16 < 4 ∧ ReservedBitSet 0x103) ∧
    (∃ s : State, s.Running ∧ s.Idle ∧ s.schedule = .busWrite 0x10 8 3 :: [] ∧ s.cfg.msgWords < s.len.toNat) ∧
    (∃ s : State, s.Running ∧ s.Idle ∧ s.schedule = .busWrite 0x10 8 3 :: [] ∧ s.len.toNat ≤ s.cfg.msgWords ∧
      s.len = 32) ∧
    (0 : Word).toNat = 0 ∧ (1 : Word).toNat = 1 ∧ (2 : Word).toNat = 2 ∧ (258 : Word).toNat = 258 ∧
    (3 : Word).toNat = 3 :=
  ⟨fun b w => ⟨meeting_running b _, rfl, by cases b <;> rfl⟩, by decide, by decide,
    ⟨by decide, 4, by decide, by decide⟩, ⟨by decide, 63, by decide, by decide⟩, ⟨by decide, 8, by decide, by decide⟩,
    ⟨{ meeting false (.busWrite 0x10 8 3) with len := 33 }, ⟨rfl, rfl⟩, rfl, rfl, by decide⟩,
    ⟨{ meeting false (.busWrite 0x10 8 3) with len := 32 }, ⟨rfl, rfl⟩, rfl, rfl, by decide, rfl⟩,
    rfl, rfl, rfl, rfl, rfl⟩

/-- WrittenCommandWordRunsItsInstruction: NOP, and HASH with LEN at its limit. -/
theorem witness_WrittenCommandWordRunsItsInstruction :
    (∃ s : State, s.Running ∧ s.Idle ∧ s.schedule = .busWrite 0x10 8 0 :: .engineTurn :: [] ∧
      (decode 0).toInstr? = some .nop ∧ Instr.wellFormed .nop = true) ∧
    ∃ s : State, s.Running ∧ s.Idle ∧ s.schedule = .busWrite 0x10 8 3 :: .engineTurn :: [] ∧
      (decode 3).toInstr? = some .hash ∧ Instr.wellFormed .hash = true ∧ Instr.hash ≠ .nop ∧
      s.len.toNat ≤ s.cfg.msgWords :=
  ⟨⟨{ block 2 with schedule := [.busWrite 0x10 8 0, .engineTurn] }, ⟨rfl, rfl⟩, rfl, rfl, by decide, rfl⟩,
    ⟨{ block 2 with schedule := [.busWrite 0x10 8 3, .engineTurn], len := 32 }, ⟨rfl, rfl⟩, rfl, rfl, by decide, rfl,
      by decide, by decide⟩⟩

/-- EngineTurnRunsThePendingInstruction, its four clauses. -/
theorem witness_EngineTurnRunsThePendingInstruction :
    ((meeting true .engineTurn).Running ∧ (meeting true .engineTurn).pend = some .init ∧
      (meeting true .engineTurn).schedule = .engineTurn :: []) ∧
    (busyBlock.Running ∧ busyBlock.pend = some .init ∧ busyBlock.schedule = []) ∧
    ((meeting false .engineTurn).Running ∧ (meeting false .engineTurn).pend = none ∧
      (meeting false .engineTurn).schedule = .engineTurn :: []) ∧
    ((block 2).Running ∧ (block 2).pend = none ∧ (block 2).schedule = []) :=
  ⟨⟨⟨rfl, rfl⟩, rfl, rfl⟩, ⟨⟨rfl, rfl⟩, rfl, rfl⟩, ⟨⟨rfl, rfl⟩, rfl, rfl⟩, ⟨⟨rfl, rfl⟩, rfl, rfl⟩⟩

/-- NopOnlyClearsErr, its three clauses; INIT's and COMPRESS's issue. -/
theorem witness_NopOnlyClearsErr :
    (∀ b w, (meeting b (.busWrite 0x10 8 w)).Running ∧
      (meeting b (.busWrite 0x10 8 w)).schedule = .busWrite 0x10 8 w :: []) ∧
    (meeting false (.busWrite 0x10 8 0)).busy = false ∧ (meeting true (.busWrite 0x10 8 0)).busy = true ∧
    (0x10 : Word).toNat % 16 = 0 ∧ (0x10 : Word).toNat ≠ 0 :=
  ⟨fun b _ => ⟨meeting_running b _, rfl⟩, rfl, rfl, by decide, by decide⟩

theorem witness_InitResult :
    (meeting false (.busWrite 0x10 8 1)).Running ∧ (meeting false (.busWrite 0x10 8 1)).Idle ∧
      (meeting false (.busWrite 0x10 8 1)).schedule = .busWrite 0x10 8 1 :: [] ∧ (1 : Word).toNat = 1 :=
  ⟨⟨rfl, rfl⟩, rfl, rfl, rfl⟩

theorem witness_CompressIsVinitTwelveRoundsFeed :
    ∀ f : Bool, ∃ w : Word, (meeting false (.busWrite 0x10 8 w)).Running ∧ (meeting false (.busWrite 0x10 8 w)).Idle ∧
      (meeting false (.busWrite 0x10 8 w)).schedule = .busWrite 0x10 8 w :: [] ∧ w.toNat = if f then 258 else 2 := by
  intro f
  cases f
  · exact ⟨2, ⟨rfl, rfl⟩, rfl, rfl, rfl⟩
  · exact ⟨258, ⟨rfl, rfl⟩, rfl, rfl, rfl⟩

/-- HashIsInitThenCompressOfEachBlock, HashLeavesCountersAndLastBlock. -/
theorem witness_HashIsInitThenCompressOfEachBlock : twoLanes.MessageWritten ∧ twoLanes.len = 1 :=
  ⟨twoLanes_written, rfl⟩

theorem witness_HashLeavesCountersAndLastBlock : twoLanes.MessageWritten ∧ 1 < twoLanes.cfg.lanes :=
  ⟨twoLanes_written, by decide⟩

/-- HashOverUnwrittenCellFaultsFirst: LEN = 2, all written but MSG[1][1]. -/
theorem witness_HashOverUnwrittenCellFaultsFirst :
    ∃ s : State, s.faulted = none ∧ 1 < s.cfg.lanes ∧ 1 < s.len.toNat ∧ s.readMsg 1 1 = none ∧
      ∀ j' k', j' < s.cfg.lanes → k' < s.len.toNat → s.readMsg j' k' = none → 1 < k' ∨ (1 = k' ∧ 1 ≤ j') := by
  refine ⟨({ twoLanes with len := 2 } : State).writeMsg 0 1 5, rfl, by decide, by decide, by decide, ?_⟩
  intro j k hj hk h
  have hj : j < 2 := hj
  have hk : k < 2 := hk
  interval_cases j <;> interval_cases k <;> first | exact absurd h (by decide) | decide

/-- HashDependsOnlyOnLenAndMsg: two states that differ in H, T0, BCOUNT and FINAL. -/
theorem witness_HashDependsOnlyOnLenAndMsg :
    ∃ s u : State, s ≠ u ∧ s.cfg = u.cfg ∧ s.len = u.len ∧ s.msg = u.msg ∧ s.MessageWritten :=
  ⟨twoLanes, { twoLanes with t0 := 5, bcount := 7, isFinal := true }, by decide, rfl, rfl, rfl, twoLanes_written⟩

theorem witness_HashLaneIsScalarBlake2b :
    twoLanes.Shaped ∧ twoLanes.MessageWritten ∧ 1 < twoLanes.cfg.lanes ∧
      ([1, 2, 3, 4, 5, 6, 7, 8] : List Byte).length = 8 * twoLanes.len.toNat ∧
      messageWords [1, 2, 3, 4, 5, 6, 7, 8] = twoLanes.laneMessage 1 :=
  ⟨twoLanes_shaped, twoLanes_written, by decide, by decide, by decide⟩

/-- The lane-wise statements: CompressLaneIsScalarCompression, AddIsModularInEveryLane, XorIsBitwiseInEveryLane,
RotrMovesEveryBitInEveryLane (bit 63, distance 63), ScalarOperandIsBroadcast, FeedResult. -/
theorem witness_CompressLaneIsScalarCompression : (block 2).Shaped ∧ 1 < (block 2).cfg.lanes :=
  ⟨block_shaped 2, by decide⟩

theorem witness_AddIsModularInEveryLane :
    (block 2).Shaped ∧ 1 < (block 2).cfg.lanes ∧ (∃ k, VDst.v 15 = .v k) ∧ ∃ k, VDst.h 7 = .h k :=
  ⟨block_shaped 2, by decide, ⟨15, rfl⟩, ⟨7, rfl⟩⟩

theorem witness_XorIsBitwiseInEveryLane :
    (block 2).Shaped ∧ 1 < (block 2).cfg.lanes ∧ (∃ k, VDst.v 0 = .v k) ∧ ∃ k, VDst.h 0 = .h k :=
  ⟨block_shaped 2, by decide, ⟨0, rfl⟩, ⟨0, rfl⟩⟩

theorem witness_RotrMovesEveryBitInEveryLane :
    (block 2).Shaped ∧ 1 < (block 2).cfg.lanes ∧ 63 < 64 ∧ (∃ k, VDst.v 15 = .v k) ∧ ∃ k, VDst.h 7 = .h k :=
  ⟨block_shaped 2, by decide, by decide, ⟨15, rfl⟩, ⟨7, rfl⟩⟩

theorem witness_RotationTakesBitsModulo64 : 63 < 64 := by decide

theorem witness_ScalarOperandIsBroadcast : 1 < (block 2).cfg.lanes := by decide

theorem witness_FeedResult : (block 2).Shaped ∧ 1 < (block 2).cfg.lanes := ⟨block_shaped 2, by decide⟩

theorem witness_GIsItsEightLines : (VSrc.m 15).isMessage = true ∧ VSrc.schedY.isMessage = true := ⟨rfl, rfl⟩

/-- GLaneIsScalarG: a register of each clause, V[1] beside G(0, 4, 8, 12). -/
theorem witness_GLaneIsScalarG :
    (block 2).Shaped ∧ distinctRegs 0 4 8 12 = true ∧ 1 < (block 2).cfg.lanes ∧
      ((1 : Fin 16) ≠ 0 ∧ (1 : Fin 16) ≠ 4 ∧ (1 : Fin 16) ≠ 8 ∧ (1 : Fin 16) ≠ 12) :=
  ⟨block_shaped 2, by decide, by decide, by decide⟩

theorem witness_CallsOfAStepCommute :
    (∃ p q, p ∈ columnStep ∧ q ∈ columnStep ∧ p ≠ q) ∧ (∃ p q, p ∈ diagonalStep ∧ q ∈ diagonalStep ∧ p ≠ q) ∧
    (VSrc.m 0).isMessage = true ∧ VSrc.schedX.isMessage = true :=
  ⟨⟨(0, 4, 8, 12), (3, 7, 11, 15), by decide, by decide, by decide⟩,
    ⟨(0, 5, 10, 15), (3, 4, 9, 14), by decide, by decide, by decide⟩, rfl, rfl⟩

/-- BuildPadsWithZeroWords, block 0 of one word per lane: M[0] is the word, M[15] is padding. -/
theorem witness_BuildPadsWithZeroWords :
    (∀ j k, j < twoLanes.cfg.lanes → k < 16 → 16 * 0 + k < twoLanes.len.toNat → twoLanes.readMsg j (16 * 0 + k) ≠ none) ∧
      16 * 0 + 0 < twoLanes.len.toNat ∧ twoLanes.readMsg 1 0 = some 0x0807060504030201 ∧
      twoLanes.len.toNat ≤ 16 * 0 + 1 :=
  ⟨fun j k hj _ hk => twoLanes_written j _ hj hk, by decide, by decide, by decide⟩

theorem witness_BuildOverUnwrittenCellFaults :
    ∃ s : State, s.faulted = none ∧ 1 < s.cfg.lanes ∧ 16 * 1 + 15 < s.len.toNat ∧ s.readMsg 1 (16 * 1 + 15) = none :=
  ⟨{ block 2 with len := 32 }, rfl, by decide, by decide, by decide⟩

/-- LanesDoNotInterfere: two states that differ in lane 1 of M[0], and agree on lane 0; ROUND(0) runs on both. -/
theorem witness_LanesDoNotInterfere :
    ∃ s u s' u' : State, s ≠ u ∧ 0 < s.cfg.lanes ∧ s.Shaped ∧ u.Shaped ∧ AgreeOnLane 0 s u ∧
      exec (.round 0) s = .next s' ∧ exec (.round 0) u = .next u' ∧ s'.faulted = none ∧ u'.faulted = none := by
  have hm : ∀ k : Fin 16, (block 2).m[k].length = 2 ∧ ((block 2).setM 0 [0, 9]).m[k].length = 2 ∧
      laneOf (block 2).m[k] 0 = laneOf ((block 2).setM 0 [0, 9]).m[k] 0 := by decide
  refine ⟨block 2, (block 2).setM 0 [0, 9], _, _, by decide, by decide, block_shaped 2, ?_, ?_, rfl, rfl, rfl, rfl⟩
  · exact ⟨(block_shaped 2).h, (block_shaped 2).v, fun k => (hm k).2.1, rfl, rfl⟩
  · exact ⟨rfl, fun _ => rfl, fun _ => rfl, fun k => (hm k).2.2, rfl, rfl, fun _ => rfl, rfl, rfl⟩

/-- BlockCountersOfAMessage: LEN = 33 has a block that is not the last, and the longest message. -/
theorem witness_BlockCountersOfAMessage :
    (33 : Nat) ≠ 0 ∧ 1 + 1 < blockCount 33 ∧ 2 < blockCount 33 ∧ 2 ^ 25 ≤ 2 ^ 25 ∧ 0 < blockCount 0 := by decide

theorem witness_AddressMapIsExact :
    admitted (block 2).cfg = true ∧ 0x2C8 % 8 = 0 ∧ (Loc.h 7 1).mapped (block 2).cfg ∧ (Loc.h 7 1).offset = 0x2C8 :=
  ⟨by decide, by decide, (by decide : 1 < 2), rfl⟩

/-- InadmissibleAccessIsABusFault: a size, a misaligned offset, and the first reserved offset. -/
theorem witness_InadmissibleAccessIsABusFault :
    (∀ b e, (meeting b e).Running ∧ (meeting b e).schedule = e :: []) ∧
    (4 ≠ 8 ∧ (0x1C : Offset).toNat % 8 ≠ 0) ∧ ∀ l : Loc, l.mapped (block 2).cfg → l.offset ≠ (0x40 : Offset).toNat := by
  refine ⟨fun b e => ⟨meeting_running b e, rfl⟩, ⟨by decide, by decide⟩, fun l _ h => ?_⟩
  cases l <;> simp [Loc.offset, msgOffset] at h <;> omega

/-- The bus statements: a two-lane block, idle or busy, that faces any one event. -/
theorem witness_bus_access (b : Bool) (e : Event) :
    (meeting b e).Running ∧ (meeting b e).busy = b ∧ (meeting b e).schedule = e :: [] ∧ (meeting b e).Shaped ∧
      (meeting b e).cfg.lanes = 2 ∧ (meeting b e).cfg.msgWords = 32 := by
  cases b <;> exact ⟨⟨rfl, rfl⟩, rfl, rfl, (block_shaped 2).congr rfl rfl rfl rfl rfl rfl, rfl, rfl⟩

/-- The ends of the windows in that block: H, M and MSG, first and last lane and word. -/
theorem witness_window_offsets :
    (0x100 : Offset).toNat = 0x100 + 64 * (0 : Fin 8).val + 8 * 0 ∧
    (0x2C8 : Offset).toNat = 0x100 + 64 * (7 : Fin 8).val + 8 * 1 ∧
    (0x400 : Offset).toNat = 0x400 + 64 * (0 : Fin 16).val + 8 * 0 ∧
    (0x7C8 : Offset).toNat = 0x400 + 64 * (15 : Fin 16).val + 8 * 1 ∧
    (0x80000000 : Offset).toNat = 0x80000000 + 64 * 0 + 8 * 0 ∧
    (0x800007C8 : Offset).toNat = 0x80000000 + 64 * 31 + 8 * 1 := by decide

/-- IdleReadIsExact: any register or window location, and a written cell at the end of the window. -/
theorem witness_IdleReadIsExact :
    (∀ e, (meeting false e).Running ∧ (meeting false e).Idle ∧ (meeting false e).schedule = e :: []) ∧
    (0x38 : Offset).toNat = 0x38 ∧ (0x2C8 : Offset).toNat = 0x100 + 64 * (7 : Fin 8).val + 8 * 1 ∧
    (0x7C8 : Offset).toNat = 0x400 + 64 * (15 : Fin 16).val + 8 * 1 ∧
    ∃ s : State, s.Running ∧ s.Idle ∧ s.schedule = .busRead 0x800007C8 8 :: [] ∧ 1 < s.cfg.lanes ∧
      31 < s.cfg.msgWords ∧ (0x800007C8 : Offset).toNat = 0x80000000 + 64 * 31 + 8 * 1 ∧ s.readMsg 1 31 = some 5 :=
  ⟨fun e => ⟨meeting_running false e, rfl, rfl⟩, by decide, by decide, by decide,
    ⟨(meeting false (.busRead 0x800007C8 8)).writeMsg 1 31 5, ⟨rfl, rfl⟩, rfl, rfl, by decide, by decide, by decide,
      by decide⟩⟩

/-- BusyReadIsADraw: the same locations while busy. -/
theorem witness_BusyReadIsADraw :
    (∀ e, (meeting true e).Running ∧ (meeting true e).busy = true ∧ (meeting true e).schedule = e :: []) ∧
    (0x28 : Offset).toNat = 0x28 ∧
    (∃ (k : Fin 8) (j : Nat), j < 2 ∧ (0x2C8 : Offset).toNat = 0x100 + 64 * k.val + 8 * j) ∧
    (∃ (k : Fin 16) (j : Nat), j < 2 ∧ (0x7C8 : Offset).toNat = 0x400 + 64 * k.val + 8 * j) ∧
    ∃ s : State, s.Running ∧ s.busy = true ∧ s.schedule = .busRead 0x800007C8 8 :: [] ∧ 1 < s.cfg.lanes ∧
      31 < s.cfg.msgWords ∧ s.readMsg 1 31 = some 5 :=
  ⟨fun e => ⟨meeting_running true e, rfl, rfl⟩, by decide, ⟨7, 1, by decide, by decide⟩, ⟨15, 1, by decide, by decide⟩,
    ⟨(meeting true (.busRead 0x800007C8 8)).writeMsg 1 31 5, ⟨rfl, rfl⟩, rfl, rfl, by decide, by decide, by decide⟩⟩

theorem witness_UnwrittenCellReadFaults :
    (meeting false (.busRead 0x800007C8 8)).Running ∧
      (meeting false (.busRead 0x800007C8 8)).schedule = .busRead 0x800007C8 8 :: [] ∧ 1 < (block 2).cfg.lanes ∧
      31 < (block 2).cfg.msgWords ∧ (0x800007C8 : Offset).toNat = 0x80000000 + 64 * 31 + 8 * 1 ∧
      (meeting false (.busRead 0x800007C8 8)).readMsg 1 31 = none :=
  ⟨⟨rfl, rfl⟩, rfl, by decide, by decide, by decide, by decide⟩

theorem witness_ReadOnlyWriteIsABusFault :
    (∀ b off w, (meeting b (.busWrite off 8 w)).Running ∧
      (meeting b (.busWrite off 8 w)).schedule = .busWrite off 8 w :: []) ∧
    (0x18 : Offset).toNat = 0x18 ∧
    ∃ (k : Fin 8) (j : Nat), j < (block 2).cfg.lanes ∧ (0x2C8 : Offset).toNat = 0x100 + 64 * k.val + 8 * j :=
  ⟨fun b _ _ => ⟨meeting_running b _, rfl⟩, by decide, 7, 1, by decide, by decide⟩

theorem witness_IdleWriteStores :
    (∀ off w, (meeting false (.busWrite off 8 w)).Running ∧ (meeting false (.busWrite off 8 w)).Idle ∧
      (meeting false (.busWrite off 8 w)).Shaped ∧
      (meeting false (.busWrite off 8 w)).schedule = .busWrite off 8 w :: []) ∧
    (0x20 : Offset).toNat = 0x20 ∧ (0x28 : Offset).toNat = 0x28 ∧ 1 < (block 2).cfg.lanes ∧ 31 < (block 2).cfg.msgWords ∧
    (0x7C8 : Offset).toNat = 0x400 + 64 * (15 : Fin 16).val + 8 * 1 ∧
    (0x800007C8 : Offset).toNat = 0x80000000 + 64 * 31 + 8 * 1 :=
  ⟨fun off w => ⟨⟨rfl, rfl⟩, rfl, (witness_bus_access false (.busWrite off 8 w)).2.2.2.1, rfl⟩, by decide, by decide,
    by decide, by decide, by decide, by decide⟩

theorem witness_BusyWriteIsDropped :
    (∀ off w, (meeting true (.busWrite off 8 w)).Running ∧ (meeting true (.busWrite off 8 w)).busy = true ∧
      (meeting true (.busWrite off 8 w)).schedule = .busWrite off 8 w :: []) ∧
    (0x20 : Offset).toNat = 0x20 ∧
    (∃ (k : Fin 16) (j : Nat), j < (block 2).cfg.lanes ∧ (0x7C8 : Offset).toNat = 0x400 + 64 * k.val + 8 * j) ∧
    ∃ j k : Nat, j < (block 2).cfg.lanes ∧ k < (block 2).cfg.msgWords ∧
      (0x800007C8 : Offset).toNat = 0x80000000 + 64 * k + 8 * j :=
  ⟨fun _ _ => ⟨⟨rfl, rfl⟩, rfl, rfl⟩, by decide, ⟨15, 1, by decide, by decide⟩, ⟨1, 31, by decide, by decide, by decide⟩⟩

/-- ConfigFields, ResetMeetsTheInvariant, AssemblerTranslatesMappedLocations: the largest and the smallest
configuration. -/
theorem witness_ConfigFields :
    admitted { lanes := 8, msgWords := 33554432 } = true ∧ admitted { lanes := 1, msgWords := 1 } = true := by decide

theorem witness_ResetMeetsTheInvariant : admitted { lanes := 8, msgWords := 33554432 } = true := by decide

theorem witness_AssemblerTranslatesMappedLocations : admitted { lanes := 8, msgWords := 33554432 } = true := by decide

theorem witness_DigestReadout :
    (meeting false (.busRead 0x1C8 8)).Running ∧ (meeting false (.busRead 0x1C8 8)).Idle ∧ 1 < (block 2).cfg.lanes ∧
      (0x1C8 : Offset).toNat = 0x100 + 64 * (3 : Fin 4).val + 8 * 1 ∧
      (meeting false (.busRead 0x1C8 8)).schedule = .busRead 0x1C8 8 :: [] :=
  ⟨⟨rfl, rfl⟩, rfl, by decide, by decide, rfl⟩

/-- ResetValues: a busy block, and a faulted one. -/
theorem witness_ResetValues :
    (admitted (meeting true .resetInput).cfg = true ∧ (meeting true .resetInput).schedule = .resetInput :: []) ∧
    ∃ s : State, s.faulted ≠ none ∧ admitted s.cfg = true ∧ s.schedule = .resetInput :: [] :=
  ⟨⟨by decide, rfl⟩, ⟨(meeting true .resetInput).raise (.uninitMsg 0 0), by decide, by decide, rfl⟩⟩

/-- BadConfigurationIsRefused: N = 0, 3 and 16, MSG_WORDS = 0 and 2^25 + 1. -/
theorem witness_BadConfigurationIsRefused :
    ¬ ((0 : Nat) = 1 ∨ (0 : Nat) = 2 ∨ (0 : Nat) = 4 ∨ (0 : Nat) = 8) ∧
    ¬ ((3 : Nat) = 1 ∨ (3 : Nat) = 2 ∨ (3 : Nat) = 4 ∨ (3 : Nat) = 8) ∧
    ¬ ((16 : Nat) = 1 ∨ (16 : Nat) = 2 ∨ (16 : Nat) = 4 ∨ (16 : Nat) = 8) ∧ 0 < 1 ∧ 2 ^ 25 < 33554433 := by decide

/-- FaultedIsNeverCleared: reset of a faulted machine answers a next state; every other event of it stops. -/
theorem witness_FaultedIsNeverCleared :
    ∃ s u : State, admitted s.cfg = true ∧ s.faulted = some (.uninitMsg 0 0) ∧ step s = .next u ∧
      admitted u.cfg = true ∧ u.faulted = some (.uninitMsg 0 0) ∧ ∀ rest, u.schedule ≠ .resetInput :: rest :=
  ⟨(meeting false .resetInput).raise (.uninitMsg 0 0), _, by decide, rfl, rfl, by decide, rfl, by intro rest h; cases h⟩

/-- ConfigurationIsFixed and StepKeepsTheInvariant: an idle step, from a state that meets the invariant. -/
theorem witness_StepKeepsTheInvariant : ∃ s s' : State, s.Inv ∧ step s = .next s' :=
  ⟨block 2, _, block_inv, rfl⟩

theorem witness_ConfigurationIsFixed : ∃ s s' : State, step s = .next s' := ⟨block 2, _, rfl⟩

theorem witness_InstructionsKeepTheInvariant : ∃ s s' : State, s.Inv ∧ exec (.round 0) s = .next s' :=
  ⟨block 2, _, block_inv, rfl⟩

theorem witness_EngineNeverWritesMsgOrLen : ∃ s s' : State, exec .init s = .next s' := ⟨twoLanes, _, rfl⟩

/-- HostAccessNeverChangesEngineState, ReadHasNoSideEffect. -/
theorem witness_HostAccessNeverChangesEngineState :
    ∃ s s' : State, s.schedule = .busRead 0x18 8 :: [] ∧ Event.busRead 0x18 8 ≠ .engineTurn ∧
      Event.busRead 0x18 8 ≠ .resetInput ∧ step s = .next s' :=
  ⟨meeting false (.busRead 0x18 8), _, rfl, by decide, by decide, rfl⟩

theorem witness_ReadHasNoSideEffect :
    (∃ s s' : State, s.schedule = .busRead 0x18 8 :: [] ∧ step s = .next s') ∧
    ∃ s s' : State, s.schedule = .busRead 0x18 8 :: .busRead 0x18 8 :: [] ∧ step s = .next s' ∧ s'.faulted = none ∧
      s'.draws = s.draws :=
  ⟨⟨meeting false (.busRead 0x18 8), _, rfl, rfl⟩,
    ⟨{ block 2 with schedule := [.busRead 0x18 8, .busRead 0x18 8] }, _, rfl, rfl, rfl, rfl⟩⟩

/-- ErrIsKeptOtherwise: a write that is dropped while busy changes ERR. -/
theorem witness_ErrIsKeptOtherwise :
    ∃ s s' : State, step s = .next s' ∧ s'.err ≠ s.err :=
  ⟨meeting true (.busWrite 0x20 8 5), _, rfl, by decide⟩

end Sys2Proof.Tests
end

section
/-! PROOFS. Scope (spec/00_scope.md): lanes that do not interfere, the lane-wise operations, broadcast, reads while busy,
and the fixed configuration. -/

namespace Sys2Proof.Machine

/-! ### What two states that agree on a lane share -/

theorem AgreeOnLane.laneH_eq {j : Nat} {s u : State} (h : AgreeOnLane j s u) : laneH s.h j = laneH u.h j := by
  ext k hk : 1
  simpa using h.h ⟨k, hk⟩

theorem AgreeOnLane.laneV_eq {j : Nat} {s u : State} (h : AgreeOnLane j s u) : lane16 s.v j = lane16 u.v j := by
  ext k hk : 1
  simpa using h.v ⟨k, hk⟩

theorem AgreeOnLane.laneM_eq {j : Nat} {s u : State} (h : AgreeOnLane j s u) : lane16 s.m j = lane16 u.m j := by
  ext k hk : 1
  simpa using h.m ⟨k, hk⟩

theorem laneOf_eq_of_laneH {h h' : HFile} {j : Nat} (e : laneH h j = laneH h' j) (k : Fin 8) :
    laneOf h[k] j = laneOf h'[k] j := by
  simpa using congrArg (fun w : Vector Word 8 => w[k]) e

theorem laneOf_eq_of_lane16 {v v' : Vector VecWord 16} {j : Nat} (e : lane16 v j = lane16 v' j) (k : Fin 16) :
    laneOf v[k] j = laneOf v'[k] j := by
  simpa using congrArg (fun w : Vector Word 16 => w[k]) e

/-- The same operand holds the same in the lane, a scalar among them (R16, R76). -/
theorem AgreeOnLane.readSrc {j : Nat} {s u : State} (h : AgreeOnLane j s u) (a : VSrc) :
    laneOf (s.readSrc a) j = laneOf (u.readSrc a) j := by
  cases a with
  | v k => exact h.v k
  | h k => exact h.h k
  | m k => exact h.m k
  | schedX => exact h.schedX
  | schedY => exact h.schedY
  | splat w => simp only [State.readSrc, h.cfg]

/-! ### State operations keep two states in agreement on a lane -/

/-- A new V that agrees in the lane. -/
theorem AgreeOnLane.withV {j : Nat} {s u : State} (h : AgreeOnLane j s u) {v v' : VFile}
    (hv : lane16 v j = lane16 v' j) : AgreeOnLane j { s with v := v } { u with v := v' } :=
  { h with v := laneOf_eq_of_lane16 hv }

/-- A new H that agrees in the lane. -/
theorem AgreeOnLane.withH {j : Nat} {s u : State} (h : AgreeOnLane j s u) {x x' : HFile}
    (hx : laneH x j = laneH x' j) : AgreeOnLane j { s with h := x } { u with h := x' } :=
  { h with h := laneOf_eq_of_laneH hx }

/-- A new T0, which is broadcast. -/
theorem AgreeOnLane.withT0 {j : Nat} {s u : State} (h : AgreeOnLane j s u) (w : Word) :
    AgreeOnLane j { s with t0 := w } { u with t0 := w } := { h with t0 := rfl }

/-- Writing a hash state word writes lane j of it in lane j. -/
theorem laneH_set (h : HFile) (k : Fin 8) (x : VecWord) (j : Nat) :
    laneH (h.set k x) j = (laneH h j).set k (laneOf x j) := by
  ext i hi : 1
  rw [getElem_laneH, Vector.getElem_set, Vector.getElem_set, getElem_laneH]
  split <;> rfl

theorem AgreeOnLane.writeDst {j : Nat} {s u : State} (h : AgreeOnLane j s u) (d : VDst) {x y : VecWord}
    (hxy : laneOf x j = laneOf y j) : AgreeOnLane j (s.writeDst d x) (u.writeDst d y) := by
  cases d with
  | v k => exact h.withV (by rw [lane16_set, lane16_set, h.laneV_eq, hxy])
  | h k => exact h.withH (by rw [laneH_set, laneH_set, h.laneH_eq, hxy])

/-- ERR is in no lane. -/
theorem AgreeOnLane.setErr {j : Nat} {s u : State} (h : AgreeOnLane j s u) (e : ErrCode) :
    AgreeOnLane j (s.setErr e) (u.setErr e) := { h with }

/-- PEND and BUSY are in no lane. -/
theorem AgreeOnLane.complete {j : Nat} {s u : State} (h : AgreeOnLane j s u) :
    AgreeOnLane j s.complete u.complete := { h with }

theorem AgreeOnLane.initStep {j : Nat} {s u : State} (h : AgreeOnLane j s u) :
    AgreeOnLane j s.initStep u.initStep :=
  { h with h := fun k => by simp only [State.initStep_h, h.cfg] }

/-- SCHED names the same message word in both. -/
theorem AgreeOnLane.sched {j : Nat} {s u : State} (h : AgreeOnLane j s u) (r : Fin 12) (c : Fin 8) :
    AgreeOnLane j { s with schedX := (schedPair s.m r c).1, schedY := (schedPair s.m r c).2 }
      { u with schedX := (schedPair u.m r c).1, schedY := (schedPair u.m r c).2 } :=
  { h with schedX := h.m _, schedY := h.m _ }

section

variable {j : Nat} {s u : State} (hj : j < s.cfg.lanes) (hs : s.Shaped) (hu : u.Shaped) (h : AgreeOnLane j s u)
include hj h

/-- BUILD puts lane j's message words into lane j (R113). -/
theorem AgreeOnLane.buildBlock (len n : Nat) : AgreeOnLane j (s.buildBlock len n) (u.buildBlock len n) := by
  have hj' : j < u.cfg.lanes := h.cfg ▸ hj
  refine { h with m := fun k => ?_ }
  simp only [State.buildBlock_m, Fin.getElem_fin, getElem_tabulate, laneOf_map_range hj, laneOf_map_range hj',
    State.blockWord, h.msg]

include hs hu

/-- Lane j of a compression is the scalar compression of lane j, which is one in both (R93, R101). -/
theorem AgreeOnLane.compression (f : Bool) : AgreeOnLane j (s.compression f) (u.compression f) := by
  have hj' : j < u.cfg.lanes := h.cfg ▸ hj
  refine { h with h := laneOf_eq_of_laneH ?_, v := laneOf_eq_of_lane16 ?_ }
  · rw [State.compression_h, State.compression_h, laneH_compressedH hj hs.mFile hs.hFile,
      laneH_compressedH hj' hu.mFile hu.hFile, h.laneH_eq, h.laneM_eq, h.t0]
  · rw [State.compression_v, State.compression_v, lane16_compressedV hj hs.mFile hs.hFile,
      lane16_compressedV hj' hu.mFile hu.hFile, h.laneH_eq, h.laneM_eq, h.t0]

theorem AgreeOnLane.hashBlock (len n : Nat) : AgreeOnLane j (s.hashBlock len n) (u.hashBlock len n) := by
  have hb := (h.buildBlock hj len n).withT0 (BitVec.ofNat 64 (byteOffset len n))
  refine hb.compression ?_ ?_ ?_ _
  · exact hj
  · exact (hs.buildBlock len n).congr rfl rfl rfl rfl rfl rfl
  · exact (hu.buildBlock len n).congr rfl rfl rfl rfl rfl rfl

/-- Lane j of FEED reads lane j of H and V alone (R98). -/
theorem AgreeOnLane.laneH_feedFile : laneH (feedFile s.h s.v) j = laneH (feedFile u.h u.v) j := by
  have hj' : j < u.cfg.lanes := h.cfg ▸ hj
  have hH : ∀ k (hk : k < 8), laneOf s.h[k] j = laneOf u.h[k] j := fun k hk => h.h ⟨k, hk⟩
  have hV : ∀ k (hk : k < 16), laneOf s.v[k] j = laneOf u.v[k] j := fun k hk => h.v ⟨k, hk⟩
  ext k hk : 1
  rw [getElem_laneH, getElem_laneH, laneOf_feedFile hj hs.hFile hs.vFile k hk,
    laneOf_feedFile hj' hu.hFile hu.vFile k hk, hH, hV, hV]

end

theorem AgreeOnLane.hashBlocks {j : Nat} (len : Nat) (ns : List Nat) {s u : State} (hj : j < s.cfg.lanes)
    (hs : s.Shaped) (hu : u.Shaped) (h : AgreeOnLane j s u) :
    AgreeOnLane j (ns.foldl (fun t n => t.hashBlock len n) s) (ns.foldl (fun t n => t.hashBlock len n) u) := by
  induction ns generalizing s u with
  | nil => exact h
  | cons n ns ih => exact ih hj (hs.hashBlock len n) (hu.hashBlock len n) (h.hashBlock hj hs hu len n)

theorem AgreeOnLane.hashMessage {j : Nat} {s u : State} (hj : j < s.cfg.lanes) (hs : s.Shaped) (hu : u.Shaped)
    (h : AgreeOnLane j s u) (len : Nat) : AgreeOnLane j (s.hashMessage len) (u.hashMessage len) :=
  AgreeOnLane.hashBlocks len _ hj (hs.initStep.congr rfl rfl rfl rfl rfl rfl)
    (hu.initStep.congr rfl rfl rfl rfl rfl rfl) { h.initStep with }

/-! ### Every instruction -/

theorem raise_faulted_ne_none (s : State) (f : Fault) : (s.raise f).faulted ≠ none := by simp

/-- HASH that leaves no model fault has run its blocks. -/
theorem execHash_unfaulted {s s' : State} (h : execHash s = .next s') (hf : s'.faulted = none) :
    s' = (s.hashMessage s.len.toNat).complete := by
  rcases execHash_next h with ⟨j, k, rfl⟩ | hs'
  · exact absurd hf (raise_faulted_ne_none s _)
  · exact hs'

/-- BUILD that leaves no model fault has built its block. -/
theorem execBuild_unfaulted {n : Nat} {s s' : State} (h : execBuild n s = .next s') (hf : s'.faulted = none) :
    s' = s.buildBlock s.len.toNat n := by
  rcases execBuild_next h with ⟨j, k, rfl⟩ | hs'
  · exact absurd hf (raise_faulted_ne_none s _)
  · exact hs'

/-- Settles O32: an instruction that leaves no model fault is one function of lane j's values and the broadcast
operands, by cases over the instructions. -/
theorem lanesDoNotInterfere : Obligations.LanesDoNotInterfere := by
  intro i j s u s' u' hj hs hu h es eu hfs hfu
  have hj' : j < u.cfg.lanes := h.cfg ▸ hj
  have lt {a : VecWord} (ha : a.length = s.cfg.lanes) : j < a.length := ha ▸ hj
  have lt' {a : VecWord} (ha : a.length = u.cfg.lanes) : j < a.length := ha ▸ hj'
  cases i with
  | nop =>
    obtain rfl := Host.Outcome.next.inj es
    obtain rfl := Host.Outcome.next.inj eu
    exact h.setErr _
  | init =>
    obtain rfl := Host.Outcome.next.inj es
    obtain rfl := Host.Outcome.next.inj eu
    exact h.initStep.complete
  | compress f =>
    obtain rfl := Host.Outcome.next.inj es
    obtain rfl := Host.Outcome.next.inj eu
    exact (h.compression hj hs hu f).complete
  | hash =>
    rw [execHash_unfaulted es hfs, execHash_unfaulted eu hfu, ← h.len]
    exact (h.hashMessage hj hs hu _).complete
  | add d a b =>
    obtain rfl := Host.Outcome.next.inj es
    obtain rfl := Host.Outcome.next.inj eu
    refine h.writeDst d ?_
    rw [laneOf_vadd (lt (hs.readSrc a)) (lt (hs.readSrc b)), laneOf_vadd (lt' (hu.readSrc a)) (lt' (hu.readSrc b)),
      h.readSrc a, h.readSrc b]
  | xor d a b =>
    obtain rfl := Host.Outcome.next.inj es
    obtain rfl := Host.Outcome.next.inj eu
    refine h.writeDst d ?_
    rw [laneOf_vxor (lt (hs.readSrc a)) (lt (hs.readSrc b)), laneOf_vxor (lt' (hu.readSrc a)) (lt' (hu.readSrc b)),
      h.readSrc a, h.readSrc b]
  | rotr d a n =>
    obtain rfl := Host.Outcome.next.inj es
    obtain rfl := Host.Outcome.next.inj eu
    refine h.writeDst d ?_
    rw [laneOf_vrotr (lt (hs.readSrc a)), laneOf_vrotr (lt' (hu.readSrc a)), h.readSrc a]
  | g a b c d x y =>
    obtain rfl := Host.Outcome.next.inj es
    obtain rfl := Host.Outcome.next.inj eu
    refine h.withV ?_
    rw [lane16_gMix_lines hj hs.vFile (hs.readSrc x) (hs.readSrc y),
      lane16_gMix_lines hj' hu.vFile (hu.readSrc x) (hu.readSrc y), h.laneV_eq, h.readSrc x, h.readSrc y]
  | sched r c =>
    obtain rfl := Host.Outcome.next.inj es
    obtain rfl := Host.Outcome.next.inj eu
    exact h.sched r c
  | vinit t f =>
    obtain rfl := Host.Outcome.next.inj es
    obtain rfl := Host.Outcome.next.inj eu
    refine h.withV ?_
    rw [lane16_vinitFile hj, lane16_vinitFile hj', h.laneH_eq]
  | round r =>
    obtain rfl := Host.Outcome.next.inj es
    obtain rfl := Host.Outcome.next.inj eu
    refine h.withV ?_
    rw [lane16_roundFile hj hs.mFile hs.vFile, lane16_roundFile hj' hu.mFile hu.vFile, h.laneV_eq, h.laneM_eq]
  | feed =>
    obtain rfl := Host.Outcome.next.inj es
    obtain rfl := Host.Outcome.next.inj eu
    exact h.withH (h.laneH_feedFile hj hs hu)
  | build n =>
    rw [execBuild_unfaulted es hfs, execBuild_unfaulted eu hfu, ← h.len]
    exact h.buildBlock hj _ _

/-! ### The lane-wise operations -/

/-- Settles O16: lane j of the sum is the sum of the lanes. -/
theorem addIsModularInEveryLane : Obligations.AddIsModularInEveryLane := by
  intro s d a b hs
  have ha := hs.readSrc a
  have hb := hs.readSrc b
  refine ⟨vadd (s.readSrc a) (s.readSrc b), by simp [ha, hb], fun j hj => ?_, ?_, ?_⟩
  · rw [laneOf_vadd (ha ▸ hj) (hb ▸ hj), BitVec.toNat_add]
  · rintro k rfl
    rfl
  · rintro k rfl
    rfl

/-- Settles O17: lane j of the exclusive or is the exclusive or of the lanes. -/
theorem xorIsBitwiseInEveryLane : Obligations.XorIsBitwiseInEveryLane := by
  intro s d a b hs
  have ha := hs.readSrc a
  have hb := hs.readSrc b
  refine ⟨vxor (s.readSrc a) (s.readSrc b), by simp [ha, hb], fun j n hj => ?_, ?_, ?_⟩
  · rw [laneOf_vxor (ha ▸ hj) (hb ▸ hj), BitVec.getLsbD_xor]
  · rintro k rfl
    rfl
  · rintro k rfl
    rfl

/-- Settles O18: lane j of the rotation is the rotated lane, whose bits `rotr_getLsbD` gives. -/
theorem rotrMovesEveryBitInEveryLane : Obligations.RotrMovesEveryBitInEveryLane := by
  intro s d a n hs
  have ha := hs.readSrc a
  refine ⟨vrotr (s.readSrc a) n, by simp [ha], fun j i hj hi => ?_, ?_, ?_⟩
  · rw [laneOf_vrotr (ha ▸ hj), rotr_getLsbD _ (distance_pos n) (distance_lt n) hi]
  · rintro k rfl
    rfl
  · rintro k rfl
    rfl

/-- Settles O20: a scalar operand is its splat. -/
theorem scalarOperandIsBroadcast : Obligations.ScalarOperandIsBroadcast :=
  fun _ w => ⟨length_splat _ w, fun _ hj => laneOf_splat hj w⟩

/-! ### Reads while busy -/

/-- The step of a scheduled read whose offset reaches a location. -/
theorem State.Running.step_readLoc {s : State} (hs : s.Running) {off : Offset} {rest : List Event}
    (h : s.schedule = .busRead off 8 :: rest) {l : Loc} (hl : locate s.cfg off 8 = some l) :
    step s = .next (State.readLoc { s with schedule := rest } off l) := by
  rw [hs.step_read h, busRead_of_locate (s := { s with schedule := rest }) hl]

/-- The step of a scheduled read of a register. -/
theorem State.Running.step_readRegister {s : State} (hs : s.Running) {off : Offset} {rest : List Event}
    (h : s.schedule = .busRead off 8 :: rest) {n : Nat} (hn : off.toNat = n) {l : Loc}
    (hl : decodeRegister n = some l) (h8 : n % 8 = 0) :
    step s = .next (State.readLoc { s with schedule := rest } off l) :=
  hs.step_readLoc h (locate_register (hn ▸ h8) (hn ▸ hl))

/-- The step of a scheduled read of a written message cell. -/
theorem State.Running.step_readMsg {s : State} (hs : s.Running) {off : Offset} {rest : List Event}
    (h : s.schedule = .busRead off 8 :: rest) {j k : Nat} (hj : j < s.cfg.lanes) (hk : k < s.cfg.msgWords)
    (ho : off.toNat = 0x80000000 + 64 * k + 8 * j) {w : Word} (hw : s.readMsg j k = some w) :
    step s = .next { s with schedule := rest, readData := some w } := by
  rw [hs.step_readLoc h (locate_msg hs.config hj hk ho), readLoc_msg_written (s := { s with schedule := rest }) hw]
  rfl

/-- Settles O37: each offset reaches its location, and while busy a location that the engine writes answers a draw. -/
theorem busyReadIsADraw : Obligations.BusyReadIsADraw := by
  intro s off rest hs hb h
  have draw (w : Word) : State.returnsUnlessBusy { s with schedule := rest } w =
      { s with schedule := rest, readData := some (Config.draw64 s.draws), draws := s.draws + 1 } :=
    returnsUnlessBusy_busy (s := { s with schedule := rest }) hb w
  refine ⟨?_, fun ho => hs.step_readRegister h ho rfl rfl, fun ho => hs.step_readRegister h ho rfl rfl,
    fun ho => hs.step_readRegister h ho rfl rfl, fun ho => hs.step_readRegister h ho rfl rfl,
    fun ho => hs.step_readRegister h ho rfl rfl, fun j k w hj hk ho hw => hs.step_readMsg h hj hk ho hw⟩
  rintro (ho | ho | ho | ⟨k, j, hj, ho⟩ | ⟨k, j, hj, ho⟩)
  · rw [hs.step_readRegister h ho (l := .t0) rfl rfl, State.readLoc, draw]
  · rw [hs.step_readRegister h ho (l := .bcount) rfl rfl, State.readLoc, draw]
  · rw [hs.step_readRegister h ho (l := .btotal) rfl rfl, State.readLoc, draw]
  · rw [hs.step_readLoc h (locate_h hs.config hj ho), State.readLoc, draw]
  · rw [hs.step_readLoc h (locate_m hs.config hj ho), State.readLoc, draw]

/-! ### The configuration -/

@[simp] theorem State.busRead_cfg (s : State) (off : Offset) (size : Nat) : (s.busRead off size).cfg = s.cfg := by
  rcases busRead_cases s off size with ⟨w, e⟩ | e | ⟨f, e⟩ <;> rw [e] <;> rfl

@[simp] theorem State.issue_cfg (s : State) (w : Word) : (s.issue w).cfg = s.cfg := by
  rcases issue_cases s w with ⟨e, h⟩ | ⟨p, -, -, h⟩ <;> rw [h] <;> rfl

@[simp] theorem State.busWrite_cfg (s : State) (off : Offset) (size : Nat) (w : Word) :
    (s.busWrite off size w).cfg = s.cfg := by
  rcases busWrite_cases s off size w with ⟨f, e⟩ | ⟨-, e⟩ | ⟨-, -, e⟩ | ⟨-, e | e | ⟨k, j, e⟩ | ⟨j, k, -, e⟩⟩ <;>
    simp [e]

theorem engineStep_cfg {s s' : State} (h : engineStep s = .next s') : s'.cfg = s.cfg := by
  rcases engineStep_next h with ⟨-, rfl⟩ | ⟨p, -, h⟩
  · rfl
  · exact (exec_keeps h).cfg

theorem runEvent_cfg {s s' : State} {e : Event} (h : runEvent s e = .next s') : s'.cfg = s.cfg := by
  cases e with
  | busRead off size => obtain rfl := Host.Outcome.next.inj h; exact s.busRead_cfg off size
  | busWrite off size w => obtain rfl := Host.Outcome.next.inj h; exact s.busWrite_cfg off size w
  | engineTurn => exact engineStep_cfg h
  | resetInput => obtain rfl := Host.Outcome.next.inj h; rfl

/-- Settles O50: neither the engine's turn nor an event nor reset changes the configuration. -/
theorem configurationIsFixed : Obligations.ConfigurationIsFixed := by
  intro s s' h
  obtain ⟨-, ⟨-, -, h⟩ | ⟨e, rest, -, -, h⟩ | ⟨f, rest, -, -, rfl⟩⟩ := step_next h
  · exact engineStep_cfg h
  · exact runEvent_cfg (s := { s with schedule := rest }) h
  · rfl

end Sys2Proof.Machine
end

section
/-! PROOFS. The state (spec/10_state.md): the invariant and that every instruction and every step keeps it, what the
engine and the host leave alone, the engine's turn, reads while idle, the fields of STATUS and CONFIG. -/

namespace Sys2Proof.Machine

/-! ### The invariant at power-on and under the state operations -/

/-- A memory with the cells of one inside its window is inside its window too. -/
theorem State.MsgInWindow.congr {s t : State} (h : s.MsgInWindow) (hc : t.cfg = s.cfg) (hm : t.msg = s.msg) :
    t.MsgInWindow := by
  unfold State.MsgInWindow
  rw [hc, hm]
  exact h

theorem State.resetWith_shaped (c : Config) : (State.resetWith c).Shaped := by
  constructor <;> intros <;> simp [State.resetWith]

theorem State.resetWith_inv {c : Config} (hc : admitted c = true) : (State.resetWith c).Inv where
  config := hc
  shaped := State.resetWith_shaped c
  msgWf := Memory.nil_wf
  msgInWindow := fun _ hm => absurd hm List.not_mem_nil
  busyIffPending := rfl
  hashLen := fun h => nomatch h

/-- Settles O51: the files are shaped, the memory is empty and nothing is pending. -/
theorem resetMeetsTheInvariant : Obligations.ResetMeetsTheInvariant :=
  ⟨fun _ hc => State.resetWith_inv hc, State.resetWith_inv (by decide)⟩

section

variable {s : State} (hs : s.Inv)
include hs

/-- While idle nothing is pending (R30). -/
theorem State.Inv.pend_of_idle (hb : s.busy = false) : s.pend = none := by
  simpa [hb] using hs.busyIffPending

theorem State.Inv.setSchedule (rest : List Event) : State.Inv { s with schedule := rest } :=
  hs.congr rfl rfl rfl rfl rfl rfl rfl rfl rfl rfl

theorem State.Inv.setErr (e : ErrCode) : (s.setErr e).Inv := hs.congr rfl rfl rfl rfl rfl rfl rfl rfl rfl rfl

theorem State.Inv.raise (f : Fault) : (s.raise f).Inv := hs.congr rfl rfl rfl rfl rfl rfl rfl rfl rfl rfl

theorem State.Inv.returns (w : Word) : (s.returns w).Inv := hs.congr rfl rfl rfl rfl rfl rfl rfl rfl rfl rfl

theorem State.Inv.returnsDraw : s.returnsDraw.Inv := hs.congr rfl rfl rfl rfl rfl rfl rfl rfl rfl rfl

theorem State.Inv.setT0 (w : Word) : State.Inv { s with t0 := w } := hs.congr rfl rfl rfl rfl rfl rfl rfl rfl rfl rfl

theorem State.Inv.resetBlock : s.resetBlock.Inv :=
  (State.resetWith_inv hs.config).congr rfl rfl rfl rfl rfl rfl rfl rfl rfl rfl

/-- Accepting a command sets PEND and BUSY together; HASH is accepted with LEN in range only (R130). -/
theorem State.Inv.accept {p : Pending} (hp : p = .hash → s.len.toNat ≤ s.cfg.msgWords) : (s.accept p).Inv where
  config := hs.config
  shaped := hs.shaped.congr rfl rfl rfl rfl rfl rfl
  msgWf := hs.msgWf
  msgInWindow := hs.msgInWindow
  busyIffPending := rfl
  hashLen := fun h => hp (Option.some.inj h)

/-- LEN may take any value while idle, because no HASH is pending then. -/
theorem State.Inv.setLen (hb : s.busy = false) (w : Word) : State.Inv { s with len := w } :=
  { hs with
    shaped := hs.shaped.congr rfl rfl rfl rfl rfl rfl
    hashLen := fun h => nomatch (hs.pend_of_idle hb).symm.trans h }

/-- A new lane value leaves the word's lanes at N. -/
theorem State.Inv.setMLane (k : Fin 16) (j : Nat) (w : Word) : (s.setM k (s.m[k].set j w)).Inv :=
  { hs with
    shaped := State.Shaped.of_files hs.shaped.hFile hs.shaped.vFile
      (hs.shaped.mFile.set k k.2 ((List.length_set ..).trans (hs.shaped.m k))) hs.shaped.schedX hs.shaped.schedY }

theorem State.Inv.writeMsg {j k : Nat} (hj : j < s.cfg.lanes) (hk : k < s.cfg.msgWords) (w : Word) :
    (s.writeMsg j k w).Inv :=
  { hs with
    shaped := hs.shaped.congr rfl rfl rfl rfl rfl rfl
    msgWf := Memory.write_wf hs.msgWf _ w
    msgInWindow := fun c hc => by
      rcases Memory.mem_write hc with rfl | hc
      · exact ⟨j, k, hj, hk, rfl⟩
      · exact hs.msgInWindow c hc }

/-! ### The invariant under the two agents -/

/-- What no instruction changes, the shape, and PEND and BUSY, which stay or are both cleared. -/
theorem State.Inv.exec {i : Instr} {t : State} (h : exec i s = .next t) : t.Inv := by
  have keeps := exec_keeps h
  refine ⟨keeps.cfg ▸ hs.config, exec_shaped hs.shaped h, keeps.msg ▸ hs.msgWf,
    hs.msgInWindow.congr keeps.cfg keeps.msg, ?_, ?_⟩
  · rcases keeps.pend with ⟨hp, hb⟩ | ⟨hp, hb⟩
    · rw [hp, hb]; exact hs.busyIffPending
    · rw [hp, hb]; rfl
  · rcases keeps.pend with ⟨hp, -⟩ | ⟨hp, -⟩
    · rw [hp, keeps.len, keeps.cfg]; exact hs.hashLen
    · rw [hp]; exact fun h => nomatch h

theorem State.Inv.engineStep {t : State} (h : engineStep s = .next t) : t.Inv := by
  rcases engineStep_next h with ⟨-, rfl⟩ | ⟨p, -, h⟩
  · exact hs
  · exact hs.exec h

theorem State.Inv.busRead (off : Offset) (size : Nat) : (s.busRead off size).Inv := by
  rcases busRead_cases s off size with ⟨w, e⟩ | e | ⟨f, e⟩ <;> rw [e]
  · exact hs.returns w
  · exact hs.returnsDraw
  · exact hs.raise f

theorem State.Inv.issue (w : Word) : (s.issue w).Inv := by
  rcases issue_cases s w with ⟨e, h⟩ | ⟨p, -, hp, h⟩ <;> rw [h]
  · exact hs.setErr e
  · exact hs.accept hp

theorem State.Inv.busWrite (off : Offset) (size : Nat) (w : Word) : (s.busWrite off size w).Inv := by
  rcases busWrite_cases s off size w with
    ⟨f, e⟩ | ⟨-, e⟩ | ⟨-, -, e⟩ | ⟨hb, e | e | ⟨k, j, e⟩ | ⟨j, k, hl, e⟩⟩ <;> rw [e]
  · exact hs.raise f
  · exact hs.issue w
  · exact hs.setErr _
  · exact hs.setLen hb w
  · exact hs.setT0 w
  · exact hs.setMLane k j w
  · obtain ⟨hj, hk⟩ := locate_msg_mapped hl
    exact hs.writeMsg hj hk w

theorem State.Inv.runEvent {e : Event} {t : State} (h : runEvent s e = .next t) : t.Inv := by
  cases e with
  | busRead off size => obtain rfl := Host.Outcome.next.inj h; exact hs.busRead off size
  | busWrite off size w => obtain rfl := Host.Outcome.next.inj h; exact hs.busWrite off size w
  | engineTurn => exact hs.engineStep h
  | resetInput => obtain rfl := Host.Outcome.next.inj h; exact hs.resetBlock

end

/-- Settles O53: what no instruction changes (`exec_keeps`), and the shape (`exec_shaped`). -/
theorem instructionsKeepTheInvariant : Obligations.InstructionsKeepTheInvariant :=
  fun _ _ _ hs h => hs.exec h

/-- Settles O52: a step is the engine's turn, an event or reset, and each keeps the invariant. -/
theorem stepKeepsTheInvariant : Obligations.StepKeepsTheInvariant := by
  intro s s' hs h
  obtain ⟨-, ⟨-, -, h⟩ | ⟨e, rest, -, -, h⟩ | ⟨f, rest, -, -, rfl⟩⟩ := step_next h
  · exact hs.engineStep h
  · exact (hs.setSchedule rest).runEvent h
  · exact (hs.setSchedule rest).resetBlock

/-! ### What the engine and the host leave alone -/

/-- Settles O54: no instruction writes MSG, LEN or the configuration (`exec_keeps`). -/
theorem engineNeverWritesMsgOrLen : Obligations.EngineNeverWritesMsgOrLen := by
  intro i s s' h
  have keeps := exec_keeps h
  exact ⟨keeps.msg, keeps.len, keeps.cfg, fun j k => by unfold State.readMsg; rw [keeps.msg]⟩

/-- The state that only the engine and reset write is the same in both (R18, R19, R28, R29). -/
def SameEngineState (s t : State) : Prop :=
  t.h = s.h ∧ t.v = s.v ∧ t.bcount = s.bcount ∧ t.btotal = s.btotal ∧ t.isFinal = s.isFinal

theorem busRead_sameEngineState (s : State) (off : Offset) (size : Nat) : SameEngineState s (s.busRead off size) := by
  rcases busRead_cases s off size with ⟨w, e⟩ | e | ⟨f, e⟩ <;> rw [e] <;> exact ⟨rfl, rfl, rfl, rfl, rfl⟩

theorem issue_sameEngineState (s : State) (w : Word) : SameEngineState s (s.issue w) := by
  rcases issue_cases s w with ⟨e, h⟩ | ⟨p, -, -, h⟩ <;> rw [h] <;> exact ⟨rfl, rfl, rfl, rfl, rfl⟩

theorem busWrite_sameEngineState (s : State) (off : Offset) (size : Nat) (w : Word) :
    SameEngineState s (s.busWrite off size w) := by
  rcases busWrite_cases s off size w with
    ⟨f, e⟩ | ⟨-, e⟩ | ⟨-, -, e⟩ | ⟨-, e | e | ⟨k, j, e⟩ | ⟨j, k, -, e⟩⟩ <;> rw [e]
  case inr.inl => exact issue_sameEngineState s w
  all_goals exact ⟨rfl, rfl, rfl, rfl, rfl⟩

/-- Settles O55: such a step is a host read or a host write, and neither writes the engine's state. -/
theorem hostAccessNeverChangesEngineState : Obligations.HostAccessNeverChangesEngineState := by
  intro s s' e rest hs hne hnr h
  obtain ⟨-, ⟨-, h0, -⟩ | ⟨e', rest', -, h1, h⟩ | ⟨f, rest', -, h2, -⟩⟩ := step_next h
  · exact nomatch h0.symm.trans hs
  · obtain ⟨rfl, rfl⟩ := List.cons.inj (h1.symm.trans hs)
    cases e' with
    | busRead off size =>
      obtain rfl := Host.Outcome.next.inj h
      exact busRead_sameEngineState { s with schedule := rest' } off size
    | busWrite off size w =>
      obtain rfl := Host.Outcome.next.inj h
      exact busWrite_sameEngineState { s with schedule := rest' } off size w
    | engineTurn => exact absurd rfl hne
    | resetInput => exact absurd rfl hnr
  · exact absurd (List.cons.inj (hs.symm.trans h2)).1 hnr

/-! ### The engine's turn -/

theorem engineStep_of_pending {s : State} {p : Pending} (h : s.pend = some p) : engineStep s = exec p.toInstr s := by
  unfold engineStep
  rw [h]

theorem engineStep_of_none {s : State} (h : s.pend = none) : engineStep s = .next s := by
  unfold engineStep
  rw [h]

/-- Settles O6: scheduled or with nothing scheduled, the engine's turn is exec of what is pending. -/
theorem engineTurnRunsThePendingInstruction : Obligations.EngineTurnRunsThePendingInstruction := by
  intro s rest hs
  refine ⟨fun p hp h => ?_, fun p hp h => ?_, fun hp h => ?_, fun hp h => ?_⟩
  · rw [hs.step_engine h, engineStep_of_pending (s := { s with schedule := rest }) hp]
  · rw [hs.step_nil h, engineStep_of_pending hp]
  · rw [hs.step_engine h, engineStep_of_none (s := { s with schedule := rest }) hp]
  · rw [hs.step_nil h, engineStep_of_none hp]

/-! ### Reads while idle -/

/-- Settles O36: each offset reaches its location, and while idle every location answers its value. -/
theorem idleReadIsExact : Obligations.IdleReadIsExact := by
  intro s off rest hs hb h
  have value (w : Word) : State.returnsUnlessBusy { s with schedule := rest } w =
      { s with schedule := rest, readData := some w } :=
    returnsUnlessBusy_idle (s := { s with schedule := rest }) hb w
  refine ⟨fun ho => hs.step_readRegister h ho rfl rfl, fun ho => hs.step_readRegister h ho rfl rfl,
    fun ho => hs.step_readRegister h ho rfl rfl, fun ho => hs.step_readRegister h ho rfl rfl,
    fun ho => hs.step_readRegister h ho rfl rfl, fun ho => ?_, fun ho => ?_, fun ho => ?_, fun k j hj ho => ?_,
    fun k j hj ho => ?_, fun j k w hj hk ho hw => hs.step_readMsg h hj hk ho hw⟩
  · rw [hs.step_readRegister h ho (l := .t0) rfl rfl, State.readLoc, value]
  · rw [hs.step_readRegister h ho (l := .bcount) rfl rfl, State.readLoc, value]
  · rw [hs.step_readRegister h ho (l := .btotal) rfl rfl, State.readLoc, value]
  · rw [hs.step_readLoc h (locate_h hs.config hj ho), State.readLoc, value]
  · rw [hs.step_readLoc h (locate_m hs.config hj ho), State.readLoc, value]

/-! ### STATUS and CONFIG -/

theorem flagBit_getLsbD (b : Bool) (n : Nat) : (flagBit b).getLsbD n = (decide (n = 0) && b) := by
  cases b
  · simp [flagBit]
  · simp [flagBit]

/-- ERR's code has four bits. -/
theorem errBits_getLsbD_of_ge (e : ErrCode) {n : Nat} (h : 4 ≤ n) : (errBits e).getLsbD n = false :=
  BitVec.getLsbD_of_ge _ _ h

/-- Every bit of STATUS (R25). -/
theorem statusWord_getLsbD (s : State) (n : Nat) : s.statusWord.getLsbD n =
    ((decide (n = 0) && s.busy) || (decide (n = 1) && s.isFinal) ||
      (decide (4 ≤ n) && (errBits s.err).getLsbD (n - 4))) := by
  unfold State.statusWord
  simp only [BitVec.getLsbD_or, BitVec.getLsbD_shiftLeft, flagBit_getLsbD, BitVec.truncate_eq_setWidth,
    BitVec.getLsbD_setWidth]
  by_cases h : n < 8
  · interval_cases n <;> simp
  · have h1 : ¬n - 1 = 0 := by omega
    have h2 : ¬n = 1 := by omega
    simp [errBits_getLsbD_of_ge s.err (n := n - 4) (by omega), h1, h2]

/-- Settles O42: each field by the bits of STATUS. -/
theorem statusFields : Obligations.StatusFields := by
  intro s
  have bit := statusWord_getLsbD s
  refine ⟨(bit 0).trans (by simp), (bit 1).trans (by simp), (bit 2).trans (by simp), (bit 3).trans (by simp), ?_,
    fun n hn => ?_, rfl, rfl, rfl, rfl, rfl, rfl⟩
  · refine BitVec.eq_of_getLsbD_eq fun i hi => ?_
    rw [BitVec.getLsbD_extractLsb', bit]
    have h1 : ¬4 + i = 1 := by omega
    simp [hi, h1]
  · have h0 : ¬n = 0 := by omega
    have h1 : ¬n = 1 := by omega
    simp [bit, errBits_getLsbD_of_ge s.err (n := n - 4) (by omega), h0, h1]

theorem toNat_ofNat_shiftLeft {n i : Nat} (h : n <<< i < 2 ^ 64) : (BitVec.ofNat 64 n <<< i).toNat = n <<< i := by
  have hn : n < 2 ^ 64 := lt_of_le_of_lt (Nat.le_shiftLeft ..) h
  rw [BitVec.toNat_shiftLeft, BitVec.toNat_ofNat, Nat.mod_eq_of_lt hn, Nat.mod_eq_of_lt h]

/-- CONFIG's fields do not overlap, so it is their sum (R23). -/
theorem configValue_toNat {c : Config} (hl : c.lanes < 2 ^ 8) (hm : c.msgWords < 2 ^ 32) :
    (configValue c).toNat = c.msgWords * 2 ^ 32 + (4 * 2 ^ 16 + (12 * 2 ^ 8 + c.lanes)) := by
  have hw : c.msgWords <<< 32 < 2 ^ 64 := by rw [Nat.shiftLeft_eq]; omega
  have fields : (configValue c).toNat = c.msgWords <<< 32 ||| (4 <<< 16 ||| (12 <<< 8 ||| c.lanes)) := by
    unfold configValue roundsField digestWordsField
    rw [BitVec.toNat_or, BitVec.toNat_or, BitVec.toNat_or, toNat_ofNat_shiftLeft (n := 12) (by decide),
      toNat_ofNat_shiftLeft (n := 4) (by decide), toNat_ofNat_shiftLeft hw, BitVec.toNat_ofNat,
      Nat.mod_eq_of_lt (by omega), Nat.or_comm, Nat.or_comm c.lanes, Nat.or_comm (12 <<< 8 ||| c.lanes)]
  rw [fields, ← Nat.shiftLeft_add_eq_or_of_lt (a := 12) (by omega),
    ← Nat.shiftLeft_add_eq_or_of_lt (a := 4) (by omega), ← Nat.shiftLeft_add_eq_or_of_lt (by omega)]
  simp only [Nat.shiftLeft_eq]

/-- Settles O43: the fields of the sum. -/
theorem configFields : Obligations.ConfigFields := by
  intro c hc
  obtain ⟨hl, -, hm⟩ := admitted_bounds hc
  have h := configValue_toNat (c := c) (by omega) (by omega)
  simp only [BitVec.extractLsb'_toNat, h, Nat.shiftRight_eq_div_pow]
  omega

end Sys2Proof.Machine
end

section
/-! PROOFS. The host bus and the byte order (spec/20_memory.md): the address map, accesses that are not admitted,
writes, the issue of a command and its engine's turn, reads that repeat, and little-endian words. -/

namespace Sys2Proof.Machine

/-! ### The address map -/

/-- An access at the offset of a location that exists reaches it (R45 to R49). -/
theorem locate_of_mapped {c : Config} (hc : admitted c = true) {off : Offset} {l : Loc} (hl : l.mapped c)
    (h : off.toNat = l.offset) : locate c off 8 = some l := by
  cases l with
  | id => exact locate_register (by rw [h]; rfl) (by rw [h]; rfl)
  | config => exact locate_register (by rw [h]; rfl) (by rw [h]; rfl)
  | cmd => exact locate_register (by rw [h]; rfl) (by rw [h]; rfl)
  | status => exact locate_register (by rw [h]; rfl) (by rw [h]; rfl)
  | len => exact locate_register (by rw [h]; rfl) (by rw [h]; rfl)
  | t0 => exact locate_register (by rw [h]; rfl) (by rw [h]; rfl)
  | bcount => exact locate_register (by rw [h]; rfl) (by rw [h]; rfl)
  | btotal => exact locate_register (by rw [h]; rfl) (by rw [h]; rfl)
  | h k j => exact locate_h hc hl h
  | m k j => exact locate_m hc hl h
  | msg j k => exact locate_msg hc hl.1 hl.2 h

/-- Every location that exists has an offset of the bus's 32 bits (R36, R48). -/
theorem Loc.offset_lt {c : Config} (hc : admitted c = true) {l : Loc} (hl : l.mapped c) : l.offset < 2 ^ 32 := by
  obtain ⟨hn, -, hw⟩ := admitted_bounds hc
  cases l <;> simp only [Loc.mapped] at hl <;> simp only [Loc.offset, msgOffset] <;> omega

/-- An aligned offset that decodes is the offset of the location it decodes to, and that location exists
(R45 to R49). -/
theorem mapped_of_decodeOffset {c : Config} {off : Nat} {l : Loc} (h8 : off % 8 = 0)
    (h : decodeOffset c off = some l) : l.mapped c ∧ l.offset = off := by
  rcases decodeOffset_eq_some h with h | h | h | h
  · rcases decodeRegister_eq_some.1 h with ⟨rfl, rfl⟩ | ⟨rfl, rfl⟩ | ⟨rfl, rfl⟩ | ⟨rfl, rfl⟩ | ⟨rfl, rfl⟩ | ⟨rfl, rfl⟩ |
      ⟨rfl, rfl⟩ | ⟨rfl, rfl⟩ <;> exact ⟨trivial, rfl⟩
  · obtain ⟨⟨h₁, h₂, hj⟩, rfl⟩ := decodeH_eq_some.1 h
    refine ⟨hj, ?_⟩
    simp only [Loc.offset, Fin.val_ofNat, windowWord, windowLane]
    omega
  · obtain ⟨⟨h₁, h₂, hj⟩, rfl⟩ := decodeM_eq_some.1 h
    refine ⟨hj, ?_⟩
    simp only [Loc.offset, Fin.val_ofNat, windowWord, windowLane]
    omega
  · obtain ⟨⟨h₁, h₂, hj⟩, rfl⟩ := decodeMsg_eq_some.1 h
    refine ⟨⟨hj, ?_⟩, ?_⟩
    · simp only [windowWord]
      omega
    · simp only [Loc.offset, msgOffset, windowWord, windowLane]
      omega

/-- Settles O34: an offset that decodes belongs to the location, and the offset of a location that exists reaches it. -/
theorem addressMapIsExact : Obligations.AddressMapIsExact := by
  intro c off l hc h8
  refine ⟨mapped_of_decodeOffset h8, ?_⟩
  rintro ⟨hl, rfl⟩
  have ho : (BitVec.ofNat 32 l.offset).toNat = l.offset := by
    rw [BitVec.toNat_ofNat, Nat.mod_eq_of_lt (Loc.offset_lt hc hl)]
  simpa only [ho] using (locate_eq_some (locate_of_mapped hc hl ho)).2.2

/-! ### Accesses that fault -/

/-- The three ways in which an access is not admitted (R43). -/
theorem locate_eq_none {c : Config} {off : Offset} {size : Nat}
    (h : size ≠ 8 ∨ off.toNat % 8 ≠ 0 ∨ ∀ l : Loc, l.mapped c → l.offset ≠ off.toNat) : locate c off size = none := by
  cases hl : locate c off size with
  | none => rfl
  | some l =>
    obtain ⟨h8, ha, hd⟩ := locate_eq_some hl
    obtain ⟨hm, ho⟩ := mapped_of_decodeOffset ha hd
    rcases h with h | h | h
    · exact absurd h8 h
    · exact absurd ha h
    · exact absurd ho (h l hm)

theorem busRead_of_locate_none {s : State} {off : Offset} {size : Nat} (h : locate s.cfg off size = none) :
    s.busRead off size = s.raise (.busFault .read off size) := by
  unfold State.busRead
  rw [h]

theorem busWrite_of_locate_none {s : State} {off : Offset} {size : Nat} {w : Word}
    (h : locate s.cfg off size = none) : s.busWrite off size w = s.raise (.busFault .write off size) := by
  unfold State.busWrite
  rw [h]

/-- Settles O35: such an access reaches no location, and its bus fault is recorded in a machine without one. -/
theorem inadmissibleAccessIsABusFault : Obligations.InadmissibleAccessIsABusFault := by
  intro s off size w rest hs hbad
  have hl := locate_eq_none hbad
  refine ⟨fun h => ?_, fun h => ?_⟩
  · rw [hs.step_read h, busRead_of_locate_none (s := { s with schedule := rest }) hl,
      raise_of_unfaulted (s := { s with schedule := rest }) hs.unfaulted]
  · rw [hs.step_write h, busWrite_of_locate_none (s := { s with schedule := rest }) hl,
      raise_of_unfaulted (s := { s with schedule := rest }) hs.unfaulted]

/-- Settles O38: the offset reaches the cell, whose read is UNINIT_READ. -/
theorem unwrittenCellReadFaults : Obligations.UnwrittenCellReadFaults := by
  intro s off rest j k hs h hj hk ho hu
  rw [hs.step_readLoc h (locate_msg hs.config hj hk ho), readLoc_msg_unwritten (s := { s with schedule := rest }) hu,
    raise_of_unfaulted (s := { s with schedule := rest }) hs.unfaulted]

/-- The step of a scheduled write at the offset of a location that exists. -/
theorem State.Running.step_writeLoc {s : State} (hs : s.Running) {off : Offset} {w : Word} {rest : List Event}
    (h : s.schedule = .busWrite off 8 w :: rest) {l : Loc} (hl : l.mapped s.cfg) (ho : off.toNat = l.offset) :
    step s = .next (State.writeLoc { s with schedule := rest } off w l) := by
  rw [hs.step_write h,
    busWrite_of_locate (s := { s with schedule := rest }) (locate_of_mapped hs.config hl ho)]

/-- Settles O39: each offset reaches its location, and a write there is a bus fault. -/
theorem readOnlyWriteIsABusFault : Obligations.ReadOnlyWriteIsABusFault := by
  intro s off w rest hs h
  have fault := raise_of_unfaulted (s := { s with schedule := rest }) hs.unfaulted (.busFault .write off 8)
  rintro (ho | ho | ho | ho | ho | ⟨k, j, hj, ho⟩)
  · rw [hs.step_writeLoc h (l := .id) trivial ho, State.writeLoc, fault]
  · rw [hs.step_writeLoc h (l := .config) trivial ho, State.writeLoc, fault]
  · rw [hs.step_writeLoc h (l := .status) trivial ho, State.writeLoc, fault]
  · rw [hs.step_writeLoc h (l := .bcount) trivial ho, State.writeLoc, fault]
  · rw [hs.step_writeLoc h (l := .btotal) trivial ho, State.writeLoc, fault]
  · rw [hs.step_writeLoc h (l := .h k j) hj ho, State.writeLoc, fault]

/-! ### Writes to the operands -/

/-- Writing lane j of a word of M changes that lane of that word alone (R54). -/
theorem laneOf_setM {s : State} (hs : s.Shaped) (k : Fin 16) {j : Nat} (hj : j < s.cfg.lanes) (w : Word)
    (k' : Fin 16) (j' : Nat) :
    laneOf (s.setM k (s.m[k].set j w)).m[k'] j' = if k' = k ∧ j' = j then w else laneOf s.m[k'] j' := by
  rw [State.setM_m, Fin.getElem_fin, Vector.getElem_set]
  by_cases hk : k' = k
  · subst hk
    rw [if_pos rfl, laneOf_set (hs.m k' ▸ hj)]
    simp
  · rw [if_neg (fun e => hk (Fin.ext e.symm)), if_neg (fun e => hk e.1)]
    rfl

/-- Settles O40: each offset reaches its location, where the write is stored while idle; one lane of a word of M
(`laneOf_setM`) and one cell (`Memory.read_write`) change. -/
theorem idleWriteStores : Obligations.IdleWriteStores := by
  intro s off w rest hs hi hshape h
  have store := storesUnlessBusy_idle (s := { s with schedule := rest }) hi
  refine ⟨fun ho => ?_, fun ho => ?_, fun k j hj ho => ⟨(s.setM k (s.m[k].set j w)).m, ?_, laneOf_setM hshape k hj w⟩,
    fun j k hj hk ho => ⟨Memory.write s.msg (msgOffset j k) w, ?_, fun a => Memory.read_write s.msg _ a w⟩⟩
  · rw [hs.step_writeLoc h (l := .len) trivial ho, State.writeLoc, store]
  · rw [hs.step_writeLoc h (l := .t0) trivial ho, State.writeLoc, store]
  · rw [hs.step_writeLoc h (l := .m k j) hj ho, State.writeLoc, store]
    rfl
  · rw [hs.step_writeLoc h (l := .msg j k) ⟨hj, hk⟩ ho, State.writeLoc, store]
    rfl

/-- Settles O41: each offset reaches its location, where the write is dropped while busy. -/
theorem busyWriteIsDropped : Obligations.BusyWriteIsDropped := by
  intro s off w rest hs hb h
  have drop (t : State) : State.storesUnlessBusy { s with schedule := rest } t =
      { s with schedule := rest, err := .busyWrite } :=
    storesUnlessBusy_busy (s := { s with schedule := rest }) hb t
  rintro (ho | ho | ⟨k, j, hj, ho⟩ | ⟨j, k, hj, hk, ho⟩)
  · rw [hs.step_writeLoc h (l := .len) trivial ho, State.writeLoc, drop]
  · rw [hs.step_writeLoc h (l := .t0) trivial ho, State.writeLoc, drop]
  · rw [hs.step_writeLoc h (l := .m k j) hj ho, State.writeLoc, drop]
  · rw [hs.step_writeLoc h (l := .msg j k) ⟨hj, hk⟩ ho, State.writeLoc, drop]

/-! ### The issue of a command -/

/-- No two decodings stand for one instruction (R65). -/
theorem eq_of_toInstr {d d' : Decoded} {i : Instr} (h : d.toInstr? = some i) (h' : d'.toInstr? = some i) : d = d' := by
  cases d <;> cases h <;> cases d' <;> cases h' <;> rfl

theorem issue_of_busy {s : State} (hb : s.busy = true) (w : Word) : s.issue w = s.setErr .busyCmd := by
  unfold State.issue
  rw [if_pos hb]

section

variable {s : State} (hb : s.busy = false) {w : Word}
include hb

theorem issue_of_badOpcode (h : decode w = .badOpcode) : s.issue w = s.setErr .badOpcode := by
  simp [State.issue, hb, h]

theorem issue_of_reservedBits (h : decode w = .reservedBits) : s.issue w = s.setErr .reservedBits := by
  simp [State.issue, hb, h]

theorem issue_of_lenRange (h : decode w = .hash) (hl : s.cfg.msgWords < s.len.toNat) :
    s.issue w = s.setErr .lenRange := by
  simp [State.issue, hb, h, hl]

theorem issue_of_nop (h : decode w = .nop) : s.issue w = s.setErr .noError := by
  simp [State.issue, hb, h]

/-- A word of INIT, COMPRESS or HASH is accepted while idle, HASH with LEN in range (R130). -/
theorem issue_of_pending {p : Pending} (h : (decode w).toInstr? = some p.toInstr)
    (hl : p = .hash → s.len.toNat ≤ s.cfg.msgWords) : s.issue w = s.accept p := by
  cases p with
  | init => simp [State.issue, hb, eq_of_toInstr (d' := .init) h rfl]
  | compress f => simp [State.issue, hb, eq_of_toInstr (d' := .compress f) h rfl]
  | hash => simp [State.issue, hb, eq_of_toInstr (d' := .hash) h rfl, hl rfl]

end

/-- The step of a scheduled write to CMD is the issue procedure (R130). -/
theorem State.Running.step_issue {s : State} (hs : s.Running) {w : Word} {rest : List Event}
    (h : s.schedule = .busWrite 0x10 8 w :: rest) : step s = .next (State.issue { s with schedule := rest } w) :=
  hs.step_writeLoc h (l := .cmd) trivial rfl

/-- Settles O4: a write to CMD is the issue procedure, whose answer each clause's hypotheses decide. -/
theorem issueChecksInOrder : Obligations.IssueChecksInOrder := by
  intro s w rest hs h
  have word {n : Nat} (hw : w.toNat = n) : w = BitVec.ofNat 64 n := by rw [← hw, BitVec.ofNat_toNat, BitVec.setWidth_eq]
  rw [hs.step_issue h]
  refine ⟨fun hb => ?_, fun hb hw => ?_, fun hb hw hr => ?_, fun hb hw hl => ?_, fun hb hw => ?_, fun hb hw => ?_,
    fun hb hw => ?_, fun hb hw => ?_, fun hb hw hl => ?_⟩
  · rw [issue_of_busy (s := { s with schedule := rest }) hb]; rfl
  · rw [issue_of_badOpcode (s := { s with schedule := rest }) hb (decode_of_badOpcode hw)]; rfl
  · rw [issue_of_reservedBits (s := { s with schedule := rest }) hb (decode_of_reserved hw hr)]; rfl
  · rw [word hw, issue_of_lenRange (s := { s with schedule := rest }) hb (by decide) hl]; rfl
  · rw [word hw, issue_of_nop (s := { s with schedule := rest }) hb (by decide)]; rfl
  · rw [word hw, issue_of_pending (s := { s with schedule := rest }) hb (p := .init) (by decide) nofun]; rfl
  · rw [word hw, issue_of_pending (s := { s with schedule := rest }) hb (p := .compress false) (by decide) nofun]; rfl
  · rw [word hw, issue_of_pending (s := { s with schedule := rest }) hb (p := .compress true) (by decide) nofun]; rfl
  · rw [word hw, issue_of_pending (s := { s with schedule := rest }) hb (p := .hash) (by decide) fun _ => hl]; rfl

/-- A word that decodes to an instruction other than NOP stands for a command that becomes pending (R30, R64). -/
theorem exists_pending_of_toInstr {d : Decoded} {i : Instr} (h : d.toInstr? = some i) (hi : i ≠ .nop) :
    ∃ p : Pending, p.toInstr = i := by
  cases d with
  | nop => exact absurd (Option.some.inj h).symm hi
  | init => exact ⟨.init, Option.some.inj h⟩
  | compress f => exact ⟨.compress f, Option.some.inj h⟩
  | hash => exact ⟨.hash, Option.some.inj h⟩
  | badOpcode => exact nomatch h
  | reservedBits => exact nomatch h

/-- Settles O5: NOP is its issue; any other command is left pending by its issue and run by the engine's turn. -/
theorem writtenCommandWordRunsItsInstruction : Obligations.WrittenCommandWordRunsItsInstruction := by
  intro s w i rest hs hidle h hd _ hl
  rw [hs.step_issue h]
  refine ⟨?_, fun hi => ?_⟩
  · rintro rfl
    rw [issue_of_nop (s := { s with schedule := .engineTurn :: rest }) hidle (eq_of_toInstr hd rfl)]
    rfl
  · obtain ⟨p, rfl⟩ := exists_pending_of_toInstr hd hi
    refine ⟨p, rfl, ?_, ?_⟩
    · rw [issue_of_pending (s := { s with schedule := .engineTurn :: rest }) hidle hd (fun hp => hl (hp ▸ rfl))]
      rfl
    · have hr : State.Running { s with
          schedule := .engineTurn :: rest, err := .noError, pend := some p, busy := true } := ⟨hs.config, hs.unfaulted⟩
      exact (engineTurnRunsThePendingInstruction _ rest hr).1 p rfl rfl

/-! ### Reads that repeat -/

/-- A step that answers a next state to a scheduled host read is that read, in a running machine. -/
theorem step_next_read {s s' : State} {off : Offset} {size : Nat} {rest : List Event}
    (hs : s.schedule = .busRead off size :: rest) (h : step s = .next s') :
    s.Running ∧ s' = State.busRead { s with schedule := rest } off size := by
  have hr : s.Running := by
    obtain ⟨hc, ⟨hf, -, -⟩ | ⟨e, rest', hf, -, -⟩ | ⟨f, rest', -, hr, -⟩⟩ := step_next h
    · exact ⟨hc, hf⟩
    · exact ⟨hc, hf⟩
    · exact nomatch hs.symm.trans hr
  exact ⟨hr, Host.Outcome.next.inj (h.symm.trans (hr.step_read hs))⟩

/-- What a host read does is a function of the block and the draw counter: not of the schedule, nor of the value that
the read before it returned (R44). -/
theorem busRead_again (s : State) (off : Offset) (size : Nat) (rest : List Event) :
    State.busRead { s with schedule := rest, readData := (s.busRead off size).readData } off size =
      { s.busRead off size with schedule := rest } := by
  have unlessBusy (w : Word) :
      State.returnsUnlessBusy { s with schedule := rest, readData := (s.returnsUnlessBusy w).readData } w =
        { s.returnsUnlessBusy w with schedule := rest } := by
    obtain hb | hb := Bool.eq_false_or_eq_true s.busy
    · rw [returnsUnlessBusy_busy hb, returnsUnlessBusy_busy (by exact hb)]; rfl
    · rw [returnsUnlessBusy_idle hb, returnsUnlessBusy_idle (by exact hb)]; rfl
  cases hl : locate s.cfg off size with
  | none => rw [busRead_of_locate_none hl, busRead_of_locate_none (by exact hl)]; rfl
  | some l =>
    obtain rfl := (locate_eq_some hl).1
    rw [busRead_of_locate hl, busRead_of_locate (l := l) (by exact hl)]
    cases l with
    | id => rfl
    | config => rfl
    | cmd => rfl
    | status => rfl
    | len => rfl
    | t0 => exact unlessBusy _
    | bcount => exact unlessBusy _
    | btotal => exact unlessBusy _
    | h k j => exact unlessBusy _
    | m k j => exact unlessBusy _
    | msg j k =>
      cases hw : s.readMsg j k with
      | none => rw [readLoc_msg_unwritten hw, readLoc_msg_unwritten (by exact hw)]; rfl
      | some w => rw [readLoc_msg_written hw, readLoc_msg_written (by exact hw)]; rfl

/-- A read that returned a value returns it again (R44). -/
theorem busRead_returns_again {s : State} {off : Offset} {size : Nat} {w : Word} (h : s.busRead off size = s.returns w)
    (rest : List Event) : (State.busRead { s.returns w with schedule := rest } off size).readData = some w := by
  have again := busRead_again s off size rest
  rw [h] at again
  exact (congrArg State.readData again :)

/-- Settles O56: a read's frame, and that a read after one that took no draw and no fault starts from the same block. -/
theorem readHasNoSideEffect : Obligations.ReadHasNoSideEffect := by
  refine ⟨fun s s' off size rest hs h => ?_, fun s s' off size rest hs h hf hd => ?_⟩
  · obtain ⟨-, rfl⟩ := step_next_read hs h
    rcases busRead_cases { s with schedule := rest } off size with ⟨w, e⟩ | e | ⟨f, e⟩ <;> rw [e] <;> rfl
  · obtain ⟨hr, rfl⟩ := step_next_read hs h
    rcases busRead_cases { s with schedule := .busRead off size :: rest } off size with ⟨w, e⟩ | e | ⟨f, e⟩ <;>
      rw [e] at hf hd ⊢
    · have hr' : (State.returns { s with schedule := .busRead off size :: rest } w).Running := ⟨hr.config, hf⟩
      exact ⟨_, hr'.step_read rfl, busRead_returns_again e rest⟩
    · exact absurd hd (Nat.succ_ne_self _)
    · exact absurd hf (raise_faulted_ne_none _ f)

/-! ### Byte order -/

/-- A word of up to eight bytes is the number with these digits to the base 256, least significant first (R40). -/
theorem toNat_leWord {bs : List Byte} (h : bs.length ≤ 8) :
    (leWord bs).toNat = Nat.ofDigits 256 (bs.map BitVec.toNat) := by
  induction bs with
  | nil => rfl
  | cons b bs ih =>
    have hlen : bs.length ≤ 7 := Nat.le_of_succ_le_succ h
    have ih := ih (by omega)
    have hlt : (leWord bs).toNat < 256 ^ 7 := by
      rw [ih]
      refine (Nat.ofDigits_lt_base_pow_length (by decide) ?_).trans_le (Nat.pow_le_pow_right (by decide) ?_)
      · simp only [List.mem_map]
        rintro _ ⟨b, -, rfl⟩
        exact b.isLt
      · simpa using hlen
    rw [leWord, List.map_cons, Nat.ofDigits_cons, ← ih, BitVec.toNat_or, BitVec.toNat_shiftLeft,
      Nat.mod_eq_of_lt (by rw [Nat.shiftLeft_eq]; omega), Nat.or_comm, BitVec.toNat_setWidth,
      Nat.mod_eq_of_lt (by omega), ← Nat.shiftLeft_add_eq_or_of_lt b.isLt, Nat.shiftLeft_eq]
    omega

/-- The first n base-256 digits of a number are its value modulo 256^n. -/
theorem ofDigits_byteDigits (x n : Nat) :
    Nat.ofDigits 256 ((List.range n).map fun t => x / 256 ^ t % 256) = x % 256 ^ n := by
  induction n with
  | zero => simp [Nat.mod_one]
  | succ n ih =>
    rw [List.range_succ, List.map_append, Nat.ofDigits_append, ih, Nat.mod_pow_succ]
    simp

theorem toNat_wordByte (w : Word) (t : Nat) : (wordByte w t).toNat = w.toNat / 2 ^ (8 * t) % 256 := by
  rw [wordByte, BitVec.toNat_setWidth, BitVec.toNat_ushiftRight, Nat.shiftRight_eq_div_pow]

/-- Settles O44: the digits to the base 256, both ways. -/
theorem byteOrderIsLittleEndian : Obligations.ByteOrderIsLittleEndian := by
  refine ⟨fun b0 b1 b2 b3 b4 b5 b6 b7 => ?_, fun w t _ => toNat_wordByte w t, fun w => BitVec.eq_of_toNat_eq ?_⟩
  · rw [toNat_leWord (by simp)]
    simp only [List.map_cons, List.map_nil, Nat.ofDigits_cons, Nat.ofDigits_nil]
    omega
  · have bytes : (wordBytes w).map BitVec.toNat = (List.range 8).map fun t => w.toNat / 256 ^ t % 256 := by
      rw [wordBytes, List.map_map]
      refine List.map_congr_left fun t _ => ?_
      rw [Function.comp_apply, toNat_wordByte, Nat.pow_mul]
    rw [toNat_leWord (by simp [wordBytes]), bytes, ofDigits_byteDigits]
    exact Nat.mod_eq_of_lt w.isLt

end Sys2Proof.Machine
end

section
/-! PROOFS. The encoding (spec/30_encoding.md): the command word, decoded and encoded, and the assembler's symbolic
locations. -/

namespace Sys2Proof.Machine

open Sys2Proof.Laws

/-! ### The command word -/

/-- Every instruction is a host command whose word decodes to it, or an internal operation without a word (R64, R67). -/
theorem hostEncoding_statement : ∀ i : Instr, HostEncoding.Statement i
  | .nop => HostEncoding.nop
  | .init => HostEncoding.init
  | .compress f => HostEncoding.compress f
  | .hash => HostEncoding.hash
  | .add d a b => HostEncoding.add d a b
  | .xor d a b => HostEncoding.xor d a b
  | .rotr d a n => HostEncoding.rotr d a n
  | .g a b c d x y => HostEncoding.g a b c d x y
  | .sched r c => HostEncoding.sched r c
  | .vinit t f => HostEncoding.vinit t f
  | .round r => HostEncoding.round r
  | .feed => HostEncoding.feed
  | .build n => HostEncoding.build n

theorem isHostCommand_and_decode_of_encode {i : Instr} {w : Word} (h : encode i = some w) :
    i.isHostCommand = true ∧ (decode w).toInstr? = some i := by
  have hi := hostEncoding_statement i
  rwa [HostEncoding.Statement, h] at hi

theorem isHostCommand_of_encode_eq_none {i : Instr} (h : encode i = none) : i.isHostCommand = false := by
  have hi := hostEncoding_statement i
  rwa [HostEncoding.Statement, h] at hi

theorem encode_isSome (i : Instr) : (encode i).isSome = i.isHostCommand := by
  cases h : encode i with
  | none => exact (isHostCommand_of_encode_eq_none h).symm
  | some w => exact (isHostCommand_and_decode_of_encode h).1.symm

/-- The three outcomes of the decoder (R65): an opcode that is not assigned, a reserved bit, or the word that the
encoder gives for an instruction. -/
theorem decode_cases (w : Word) :
    (4 ≤ w.toNat % 16 ∧ decode w = .badOpcode) ∨
    ((w.toNat % 16 < 4 ∧ ReservedBitSet w) ∧ decode w = .reservedBits) ∨
    ∃ i, (decode w).toInstr? = some i ∧ encode i = some w := by
  by_cases hop : 4 ≤ w.toNat % 16
  · exact .inl ⟨hop, decode_of_badOpcode hop⟩
  have hop : w.toNat % 16 < 4 := Nat.lt_of_not_le hop
  by_cases hr : ReservedBitSet w
  · exact .inr (.inl ⟨⟨hop, hr⟩, decode_of_reserved hop hr⟩)
  refine .inr (.inr ?_)
  rcases decode_of_accepted hop hr with ⟨rfl, h⟩ | ⟨rfl, h⟩ | ⟨rfl, h⟩ | ⟨rfl, h⟩ | ⟨rfl, h⟩ <;>
    exact ⟨_, congrArg Decoded.toInstr? h, rfl⟩

/-- A word that decodes to an instruction is the word that the encoder gives for it. -/
theorem encode_of_decode {i : Instr} {w : Word} (h : (decode w).toInstr? = some i) : encode i = some w := by
  rcases decode_cases w with ⟨-, hd⟩ | ⟨-, hd⟩ | ⟨i', hd, he⟩
  · rw [hd] at h
    exact nomatch h
  · rw [hd] at h
    exact nomatch h
  · obtain rfl := Option.some.inj (hd.symm.trans h)
    exact he

/-- Settles O1: every decoded word is its instruction's (`encode_of_decode`), and every instruction's word decodes to
it. -/
theorem decodeReadsExactlyTheEncodedWords : Obligations.DecodeReadsExactlyTheEncodedWords :=
  ⟨fun _ _ => ⟨encode_of_decode, fun h => (isHostCommand_and_decode_of_encode h).2⟩, encode_isSome⟩

theorem decode_eq_badOpcode_iff (w : Word) : decode w = .badOpcode ↔ 4 ≤ w.toNat % 16 := by
  refine ⟨fun h => ?_, decode_of_badOpcode⟩
  rcases decode_cases w with ⟨hop, -⟩ | ⟨-, hd⟩ | ⟨i, hd, -⟩
  · exact hop
  · exact nomatch hd.symm.trans h
  · rw [h] at hd
    exact nomatch hd

theorem decode_eq_reservedBits_iff (w : Word) :
    decode w = .reservedBits ↔ w.toNat % 16 < 4 ∧ ReservedBitSet w := by
  refine ⟨fun h => ?_, fun h => decode_of_reserved h.1 h.2⟩
  rcases decode_cases w with ⟨-, hd⟩ | ⟨hr, -⟩ | ⟨i, hd, -⟩
  · exact nomatch hd.symm.trans h
  · exact hr
  · rw [h] at hd
    exact nomatch hd

/-- A decoding that stands for an instruction is the decoding of one word alone, the one that the encoder gives. -/
theorem decode_eq_iff_of_encode {d : Decoded} {i : Instr} {v : Word} (hd : d.toInstr? = some i)
    (hv : encode i = some v) (w : Word) : decode w = d ↔ w.toNat = v.toNat :=
  calc decode w = d
      ↔ (decode w).toInstr? = some i := ⟨fun h => h ▸ hd, fun h => eq_of_toInstr h hd⟩
    _ ↔ encode i = some w := decodeReadsExactlyTheEncodedWords.1 i w
    _ ↔ w.toNat = v.toNat := by rw [hv, Option.some.injEq, eq_comm, BitVec.toNat_inj]

/-- Settles O3: the rejected words by the decoder's two checks, the five accepted ones by the encoder. -/
theorem decodeClassifiesEveryWord : Obligations.DecodeClassifiesEveryWord := fun w =>
  ⟨decode_eq_badOpcode_iff w, decode_eq_reservedBits_iff w,
    decode_eq_iff_of_encode (v := 0) rfl rfl w, decode_eq_iff_of_encode (v := 1) rfl rfl w,
    decode_eq_iff_of_encode (v := 2) rfl rfl w, decode_eq_iff_of_encode (v := 258) rfl rfl w,
    decode_eq_iff_of_encode (v := 3) rfl rfl w⟩

/-- Settles O2: the words of the five commands; then bit 8 outside COMPRESS, bit 4, bit 63, two opcodes that are not
assigned, and bit 4 under NOP's opcode. -/
theorem encodingExamplesDecode : Obligations.EncodingExamplesDecode :=
  ⟨(decode_eq_iff_of_encode rfl rfl _).2 rfl, (decode_eq_iff_of_encode rfl rfl _).2 rfl,
    (decode_eq_iff_of_encode rfl rfl _).2 rfl, (decode_eq_iff_of_encode rfl rfl _).2 rfl,
    (decode_eq_iff_of_encode rfl rfl _).2 rfl, decode_of_reserved (by decide) ⟨8, by decide, by decide⟩,
    decode_of_reserved (by decide) ⟨4, by decide, by decide⟩,
    decode_of_reserved (by decide) ⟨63, by decide, by decide⟩, decode_of_badOpcode (by decide),
    decode_of_badOpcode (by decide), decode_of_reserved (by decide) ⟨4, by decide, by decide⟩⟩

/-! ### The assembler's locations -/

/-- An offset that fits the bus's 32 bits whenever it is translated is translated to itself. -/
theorem map_toNat_ite_ofNat {p : Prop} [Decidable p] {n : Nat} (h : p → n < 2 ^ 32) :
    (if p then some (BitVec.ofNat 32 n) else none).map BitVec.toNat = if p then some n else none := by
  by_cases hp : p
  · rw [if_pos hp, if_pos hp, Option.map_some, BitVec.toNat_ofNat, Nat.mod_eq_of_lt (h hp)]
  · rw [if_neg hp, if_neg hp, Option.map_none]

/-- Settles O46: a window location that the assembler translates exists, so its offset has 32 bits
(`Loc.offset_lt`). -/
theorem assemblerTranslatesMappedLocations : Obligations.AssemblerTranslatesMappedLocations := by
  intro c hc
  refine ⟨rfl, fun w j => ?_, fun w j => ?_, fun w j => ?_⟩
  · exact map_toNat_ite_ofNat fun ⟨hw, hj⟩ => Loc.offset_lt hc (l := .h ⟨w, hw⟩ j) hj
  · exact map_toNat_ite_ofNat fun ⟨hw, hj⟩ => Loc.offset_lt hc (l := .m ⟨w, hw⟩ j) hj
  · exact map_toNat_ite_ofNat fun ⟨hw, hj⟩ => Loc.offset_lt hc (l := .msg j w) ⟨hj, hw⟩

end Sys2Proof.Machine
end

section
/-! PROOFS. The vector-lane mixer (spec/40_lane_mixer.md): the rotation, G by its lines and lane by lane, the calls of a
step in either order, and ROUND by its calls. -/

namespace Sys2Proof.Machine

/-! ### The rotation -/

/-- Settles O19: the bit law is `rotr_getLsbD`; at distance 63 the two shifts of `rotr` are those of a rotation left
by 1. -/
theorem rotationTakesBitsModulo64 : Obligations.RotationTakesBitsModulo64 :=
  ⟨⟨rfl, rfl, rfl, rfl⟩, fun x n _ hi => rotr_getLsbD x (distance_pos n) (distance_lt n) hi,
    fun x => BitVec.or_comm (x >>> 63) (x <<< 1)⟩

/-! ### G by its lines -/

section

variable {s : State} {v : VFile} {k p : Fin 16} {rest : List Instr}

/-- The line `V[k] <- V[k] + V[p]` of G (R78) is one ADD. -/
theorem runInstrs_add :
    runInstrs (.add (.v k) (.v k) (.v p) :: rest) { s with v := v } =
      runInstrs rest { s with v := v.set k (vadd v[k] v[p]) } :=
  runInstrs_cons (exec_add_v { s with v := v } k k (.v p))

/-- The line `V[k] <- V[k] + V[p] + z` of G (R78) is two ADDs. -/
theorem runInstrs_add_add {z : VSrc} (hz : z.isMessage = true) :
    runInstrs (.add (.v k) (.v k) (.v p) :: .add (.v k) (.v k) z :: rest) { s with v := v } =
      runInstrs rest { s with v := v.set k (vadd (vadd v[k] v[p]) (s.readSrc z)) } := by
  rw [runInstrs_add, runInstrs_cons (exec_add_v _ k k z), readSrc_of_isMessage hz]
  simp [State.setV]

/-- The line `V[k] <- rotr(V[k] ^ V[p], n)` of G (R78) is an XOR and a ROTR. -/
theorem runInstrs_xor_rotr (n : RotDist) :
    runInstrs (.xor (.v k) (.v k) (.v p) :: .rotr (.v k) (.v k) n :: rest) { s with v := v } =
      runInstrs rest { s with v := v.set k (vrotr (vxor v[k] v[p]) n) } := by
  rw [runInstrs_cons (exec_xor_v _ k k p), runInstrs_cons (exec_rotr_v _ k k n), setV_setV, setV_getElem]
  rfl

end

/-- Settles O21: the operations of each line come to that line of `gMix`, and no line changes a message word. -/
theorem gIsItsEightLines : Obligations.GIsItsEightLines := by
  intro s a b c d x y hx hy
  refine ⟨_, rfl, ?_⟩
  rw [gLines, runInstrs_add_add hx, runInstrs_xor_rotr, runInstrs_add, runInstrs_xor_rotr,
    runInstrs_add_add hy, runInstrs_xor_rotr, runInstrs_add, runInstrs_xor_rotr]
  rfl

/-! ### G on its registers and in its lanes -/

/-- G leaves every register but its four alone (R77). -/
theorem gMix_getElem_of_ne {a b c d k : Fin 16} (h : distinctRegs a b c d = true) (ha : k ≠ a) (hb : k ≠ b)
    (hc : k ≠ c) (hd : k ≠ d) (x y : VecWord) (v : VFile) : (gMix a b c d x y v)[k] = v[k] := by
  obtain ⟨A, B, C, D, e⟩ := gMix_eq_setFour x y h
  rw [e, setFour_getElem_of_ne ha hb hc hd]

/-- Settles O22: the frame on V is `gMix_getElem_of_ne`, the lanes are `lane16_gMix`. -/
theorem gLaneIsScalarG : Obligations.GLaneIsScalarG := by
  intro s a b c d x y hs h
  refine ⟨gMix a b c d (s.readSrc x) (s.readSrc y) s.v, rfl, fun k ha hb hc hd => ?_, fun j hj => ?_⟩
  · exact gMix_getElem_of_ne h ha hb hc hd _ _ _
  · exact lane16_gMix hj hs.vFile (hs.readSrc x) (hs.readSrc y) h

/-! ### The calls of a step in either order -/

/-- The registers (a, b, c, d) of one call of G. -/
abbrev RegGroup := Fin 16 × Fin 16 × Fin 16 × Fin 16

/-- The registers of a call as a list. -/
def RegGroup.regs (p : RegGroup) : List (Fin 16) := [p.1, p.2.1, p.2.2.1, p.2.2.2]

/-- What a call of G on a register group does to V. -/
def RegGroup.mix (p : RegGroup) (x y : VecWord) (v : VFile) : VFile := gMix p.1 p.2.1 p.2.2.1 p.2.2.2 x y v

/-- The four registers of the group are distinct (R77). -/
def RegGroup.Distinct (p : RegGroup) : Prop := distinctRegs p.1 p.2.1 p.2.2.1 p.2.2.2 = true

theorem setFour_getElem_congr {a b c d k : Fin 16} (hk : k ∈ [a, b, c, d]) (p q r t : VecWord) (u v : VFile) :
    (setFour a b c d p q r t u)[k] = (setFour a b c d p q r t v)[k] := by
  simp only [List.mem_cons, List.not_mem_nil, or_false] at hk
  simp only [setFour, Fin.getElem_fin, Vector.getElem_set]
  split_ifs with hd hc hb ha
  · rfl
  · rfl
  · rfl
  · rfl
  · omega

section

variable {p : RegGroup} (hp : p.Distinct)
include hp

theorem RegGroup.mix_getElem_of_not_mem {k : Fin 16} (hk : k ∉ p.regs) (x y : VecWord) (v : VFile) :
    (p.mix x y v)[k] = v[k] := by
  obtain ⟨ha, hb, hc, hd⟩ : k ≠ p.1 ∧ k ≠ p.2.1 ∧ k ≠ p.2.2.1 ∧ k ≠ p.2.2.2 := by simpa [RegGroup.regs] using hk
  exact gMix_getElem_of_ne hp ha hb hc hd x y v

/-- What G writes depends on its four registers and its message words alone (R77). -/
theorem RegGroup.mix_getElem_congr {u v : VFile} (huv : ∀ i ∈ p.regs, u[i] = v[i]) {k : Fin 16} (hk : k ∈ p.regs)
    (x y : VecWord) : (p.mix x y u)[k] = (p.mix x y v)[k] := by
  obtain ⟨A, B, C, D, e⟩ := gMix_eq_setFour x y hp
  have ⟨ha, hb, hc, hd⟩ : u[p.1] = v[p.1] ∧ u[p.2.1] = v[p.2.1] ∧ u[p.2.2.1] = v[p.2.2.1] ∧ u[p.2.2.2] = v[p.2.2.2] := by
    simpa [RegGroup.regs] using huv
  rw [RegGroup.mix, RegGroup.mix, e, e, ha, hb, hc, hd]
  exact setFour_getElem_congr hk _ _ _ _ u v

/-- On a register of `p`, a call on other registers before or after the call on `p` makes no difference. -/
theorem RegGroup.mix_mix_getElem_of_mem {q : RegGroup} (hq : q.Distinct) (hpq : p.regs.Disjoint q.regs)
    {k : Fin 16} (hk : k ∈ p.regs) (x y z w : VecWord) (v : VFile) :
    (q.mix z w (p.mix x y v))[k] = (p.mix x y (q.mix z w v))[k] :=
  calc (q.mix z w (p.mix x y v))[k]
    _ = (p.mix x y v)[k] := mix_getElem_of_not_mem hq (hpq hk) z w _
    _ = (p.mix x y (q.mix z w v))[k] :=
      mix_getElem_congr hp (fun i hi => (mix_getElem_of_not_mem hq (hpq hi) z w v).symm) hk x y

/-- Two calls of G on disjoint register groups commute (R82). -/
theorem RegGroup.mix_comm {q : RegGroup} (hq : q.Distinct) (hpq : p.regs.Disjoint q.regs) (x y z w : VecWord)
    (v : VFile) : q.mix z w (p.mix x y v) = p.mix x y (q.mix z w v) := by
  refine Vector.ext fun i hi => ?_
  suffices h : ∀ k : Fin 16, (q.mix z w (p.mix x y v))[k] = (p.mix x y (q.mix z w v))[k] from h ⟨i, hi⟩
  intro k
  by_cases hkp : k ∈ p.regs
  · exact mix_mix_getElem_of_mem hp hq hpq hkp x y z w v
  by_cases hkq : k ∈ q.regs
  · exact (mix_mix_getElem_of_mem hq hp hpq.symm hkq z w x y v).symm
  · rw [mix_getElem_of_not_mem hq hkq, mix_getElem_of_not_mem hp hkp, mix_getElem_of_not_mem hp hkp,
      mix_getElem_of_not_mem hq hkq]

end

theorem exec_mixCall (p : RegGroup) (x y : VSrc) (s : State) :
    exec (mixCall p x y) s = .next { s with v := p.mix (s.readSrc x) (s.readSrc y) s.v } := rfl

/-- Two calls of G in a row: the second reads the same message words as before the first. -/
theorem runInstrs_mixCall_mixCall {z w : VSrc} (hz : z.isMessage = true) (hw : w.isMessage = true) (p q : RegGroup)
    (x y : VSrc) (s : State) :
    runInstrs [mixCall p x y, mixCall q z w] s =
      .next { s with v := q.mix (s.readSrc z) (s.readSrc w) (p.mix (s.readSrc x) (s.readSrc y) s.v) } := by
  rw [runInstrs_cons (exec_mixCall p x y s), runInstrs_cons (exec_mixCall q z w _), readSrc_of_isMessage hz,
    readSrc_of_isMessage hw]
  rfl

/-- Every call of the two steps is on distinct registers (R80, R81). -/
theorem step_distinct : ∀ st ∈ [columnStep, diagonalStep], ∀ p ∈ st, RegGroup.Distinct p := by
  intro st hst p hp
  fin_cases hst <;> fin_cases hp <;> rfl

/-- Different calls of one step touch disjoint registers (R82). -/
theorem step_disjoint :
    ∀ st ∈ [columnStep, diagonalStep], ∀ p ∈ st, ∀ q ∈ st, p ≠ q → (RegGroup.regs p).Disjoint (RegGroup.regs q) := by
  unfold List.Disjoint
  decide

/-- Settles O28: the registers of two calls of a step are disjoint, so the calls commute. -/
theorem callsOfAStepCommute : Obligations.CallsOfAStepCommute := by
  intro s p q x y z w hstep hne hx hy hz hw
  obtain ⟨st, hst, hp, hq⟩ : ∃ st ∈ [columnStep, diagonalStep], p ∈ st ∧ q ∈ st := by simpa using hstep
  have hpq := step_disjoint st hst p hp q hq hne
  refine ⟨_, runInstrs_mixCall_mixCall hz hw p q x y s, ?_⟩
  rw [runInstrs_mixCall_mixCall hx hy q p z w s, RegGroup.mix_comm (step_distinct st hst p hp)
    (step_distinct st hst q hq) hpq]

/-! ### ROUND by its calls -/

/-- SCHED(r, g) and G on the pair that it answers: call g of the round, and the pair in the port. -/
theorem runInstrs_sched_g (r : Fin 12) (g : Fin 8) (a b c d : Fin 16) (rest : List Instr) (s : State) :
    runInstrs (.sched r g :: .g a b c d .schedX .schedY :: rest) s =
      runInstrs rest { s with
        v := scheduledMix s.m r g a b c d s.v
        schedX := (schedPair s.m r g).1
        schedY := (schedPair s.m r g).2 } := rfl

/-- Settles O27: each SCHED and G pair is one call of `roundFile`, and the port is left with the last call's pair. -/
theorem roundIsEightScheduledG : Obligations.RoundIsEightScheduledG := by
  intro s r
  refine ⟨{ s with
    v := roundFile s.m r s.v
    schedX := (schedPair s.m r 7).1
    schedY := (schedPair s.m r 7).2 }, ?_, rfl⟩
  simp only [roundLines, runInstrs_sched_g, roundFile]
  rfl

end Sys2Proof.Machine
end

section
/-! The message schedule (spec/41_message_schedule.md): the calls of a round take its row of σ in order, two words at a
time (R87), and every row is a permutation (R85). -/

namespace Sys2Proof.Machine

/-- Settles O25, on the numbers of the table (R84). -/
theorem sigmaRowsArePermutations : Obligations.SigmaRowsArePermutations := by
  unfold Obligations.SigmaRowsArePermutations
  decide

theorem sigmaRow_count (r : Fin 12) (k : Fin 16) : (sigmaRow r).toList.count k = 1 :=
  sigmaRowsArePermutations ⟨r.val % 10, Nat.mod_lt _ (by decide)⟩ k

theorem sigmaRow_nodup (r : Fin 12) : (sigmaRow r).toList.Nodup :=
  List.nodup_iff_count_le_one.mpr fun k => (sigmaRow_count r k).le

/-- The entries of a row of σ, taken two at a time in order. -/
theorem flatMap_pairs_eq_toList {α : Type} {n : Nat} (v : Vector α (2 * n)) :
    ((List.finRange n).flatMap fun c => [v[2 * c.val], v[2 * c.val + 1]]) = v.toList := by
  have hv : v.toList = List.ofFn fun i : Fin (2 * n) => v[i] := List.ext_getElem (by simp) (by simp)
  rw [hv, List.ofFn_mul', List.flatMap_def, ← List.ofFn_eq_map]
  simp

/-- The calls of a round, in order, take the words of its row of σ, in order (R87, R88). -/
theorem schedIndex_flatMap_eq_sigmaRow (r : Fin 12) :
    ((List.finRange 8).flatMap fun c => [schedIndexX r c, schedIndexY r c]) = (sigmaRow r).toList :=
  flatMap_pairs_eq_toList (n := 8) (sigmaRow r)

/-- The two words of a call are at different positions of a permutation, so they differ (R89). -/
theorem schedIndexX_ne_schedIndexY (r : Fin 12) (c : Fin 8) : schedIndexX r c ≠ schedIndexY r c := by
  intro h
  have hpos : 2 * c.val = 2 * c.val + 1 := (sigmaRow_nodup r).getElem_inj_iff.mp h
  omega

/-- Call c of round r takes the pair that R91 lists. -/
theorem schedIndex_eq_fullSchedule (r : Fin 12) (c : Fin 8) :
    schedIndexX r c = fullSchedule[r][c].1 ∧ schedIndexY r c = fullSchedule[r][c].2 := by
  decide +revert

theorem schedPair_eq_fullSchedule (m : MFile) (r : Fin 12) (c : Fin 8) :
    schedPair m r c = (m[fullSchedule[r][c].1], m[fullSchedule[r][c].2]) := by
  obtain ⟨hx, hy⟩ := schedIndex_eq_fullSchedule r c
  simp only [schedPair, hx, hy]

/-- Settles O23: the pairs are the table's; that they differ and cover M once a round is that rows of σ are
permutations. -/
theorem scheduleIsTheListedOne : Obligations.ScheduleIsTheListedOne := by
  refine ⟨fun m r c => ?_, fun r k => ?_⟩
  · obtain ⟨hx, hy⟩ := schedIndex_eq_fullSchedule r c
    exact ⟨schedPair_eq_fullSchedule m r c, hx, hy, hx ▸ hy ▸ schedIndexX_ne_schedIndexY r c⟩
  · rw [schedIndex_flatMap_eq_sigmaRow]
    exact sigmaRow_count r k

theorem exec_sched (r : Fin 12) (c : Fin 8) (s : State) : exec (.sched r c) s = execSched r c s := rfl

/-- Settles O24: the port holds `schedPair`, which is the listed pair. -/
theorem schedFollowsTheFullSchedule : Obligations.SchedFollowsTheFullSchedule := by
  intro s r c
  rw [exec_sched, execSched, schedPair_eq_fullSchedule]

end Sys2Proof.Machine
end

section
/-! Lane-parallel compression (spec/42_compress.md): the working registers that VINIT fills, FEED, and COMPRESS by its
operations and lane by lane. -/

namespace Sys2Proof.Machine

/-! ### VINIT -/

/-- VINIT fills V from H and the IV, with t in word 12 and the final-flag mask in word 14 (R95). -/
theorem vinitFile_eq (lanes : Nat) (h : HFile) (t : Word) (f : Bool) :
    vinitFile lanes h t f =
      #v[h[0], h[1], h[2], h[3], h[4], h[5], h[6], h[7], splat lanes iv[0], splat lanes iv[1], splat lanes iv[2],
         splat lanes iv[3], splat lanes (iv[4] ^^^ t), splat lanes iv[5],
         splat lanes (iv[6] ^^^ if f then ones else 0), splat lanes iv[7]] := by
  simp only [← vxor_splat]
  rfl

theorem exec_vinit (t : Word) (f : Bool) (s : State) :
    exec (.vinit t f) s = .next { s with v := vinitFile s.cfg.lanes s.h t f } := rfl

/-- Settles O26: the words are those of `vinitFile_eq`; in word 14 the mask complements the IV word or leaves it. -/
theorem vinitResult : Obligations.VinitResult := by
  intro s t f
  rw [exec_vinit, vinitFile_eq]
  cases f with
  | false => rfl
  | true => rfl

/-! ### FEED -/

theorem exec_feed (s : State) : exec .feed s = .next { s with h := feedFile s.h s.v } := rfl

/-- Settles O29: lane j of `feedFile` is `laneOf_feedFile`. -/
theorem feedResult : Obligations.FeedResult := fun s hs =>
  ⟨feedFile s.h s.v, exec_feed s, fun k _ hj => laneOf_feedFile hj hs.hFile hs.vFile k k.2⟩

/-! ### COMPRESS -/

theorem exec_compress (f : Bool) (s : State) : exec (.compress f) s = .next (s.compression f).complete := rfl

/-- Settles O15: lane j of the new H is `laneH_compressedH`. -/
theorem compressLaneIsScalarCompression : Obligations.CompressLaneIsScalarCompression := fun s f hs =>
  ⟨(s.compression f).complete, exec_compress f s, fun _ hj => laneH_compressedH hj hs.mFile hs.hFile s.t0 f⟩

theorem exec_round (r : Fin 12) (s : State) : exec (.round r) s = .next { s with v := roundFile s.m r s.v } := rfl

/-- ROUND operations one after the other are the round loop over their numbers (R96). -/
theorem runInstrs_rounds (rs : List (Fin 12)) (rest : List Instr) (s : State) :
    runInstrs (rs.map .round ++ rest) s =
      runInstrs rest { s with v := rs.foldl (fun v r => roundFile s.m r v) s.v } := by
  induction rs generalizing s with
  | nil => rfl
  | cons r rs ih =>
    rw [List.map_cons, List.cons_append, runInstrs_cons (exec_round r s), ih, List.foldl_cons]

theorem compressLines_eq (t : Word) (f : Bool) :
    compressLines t f = .vinit t f :: ((List.finRange 12).map .round ++ [.feed]) := rfl

/-- VINIT, the 12 rounds and FEED are the compression function, with V as the last round left it (R99). -/
theorem runInstrs_compressLines (t : Word) (f : Bool) (s : State) :
    runInstrs (compressLines t f) s = .next { s with
      h := compressedH s.cfg.lanes s.h s.m t f, v := compressedV s.cfg.lanes s.h s.m t f } := by
  rw [compressLines_eq, runInstrs_cons (exec_vinit t f s), runInstrs_rounds, runInstrs_cons (exec_feed _)]
  rfl

/-- Settles O9: the lines are `runInstrs_compressLines`, the issue is the COMPRESS clauses of O4. -/
theorem compressIsVinitTwelveRoundsFeed : Obligations.CompressIsVinitTwelveRoundsFeed := by
  refine ⟨fun s f => ⟨_, runInstrs_compressLines s.t0 f s, ?_⟩, fun s w f rest hs hidle h hw => ?_⟩
  · have hcount : s.bcount + 1 = BitVec.ofNat 64 (s.bcount.toNat + 1) := BitVec.eq_of_toNat_eq rfl
    rw [← hcount, exec_compress]
    rfl
  · obtain ⟨-, -, -, -, -, -, hcompress, hcompressF, -⟩ := issueChecksInOrder s w rest hs h
    cases f with
    | false => exact hcompress hidle hw
    | true => exact hcompressF hidle hw

end Sys2Proof.Machine
end

section
/-! PROOFS. INIT, HASH and padding (spec/43_init_hash_padding.md): NOP and INIT, the counters of a message, BUILD, HASH
by its blocks, lane by lane and from its inputs alone, and the digest. -/

namespace Sys2Proof.Machine

/-! ### NOP and INIT -/

/-- A word with NOP's opcode and any other bit set has a reserved bit (R65, R66). -/
theorem reservedBitSet_of_nop_opcode {w : Word} (h : w.toNat % 16 = 0) (h0 : w.toNat ≠ 0) : ReservedBitSet w := by
  by_contra hr
  rcases decode_of_accepted (by omega) hr with ⟨rfl, -⟩ | ⟨rfl, -⟩ | ⟨rfl, -⟩ | ⟨rfl, -⟩ | ⟨rfl, -⟩
  · exact h0 rfl
  all_goals exact absurd h (by decide)

/-- Settles O7: the issue clauses of O4, with the reserved bit that `reservedBitSet_of_nop_opcode` gives. -/
theorem nopOnlyClearsErr : Obligations.NopOnlyClearsErr := by
  refine ⟨fun s => rfl, fun s w rest hs h => ?_⟩
  obtain ⟨hbusy, -, hreserved, -, hnop, -⟩ := issueChecksInOrder s w rest hs h
  exact ⟨hnop, fun hb _ => hbusy hb,
    fun hb hw h0 => hreserved hb (by omega) (reservedBitSet_of_nop_opcode hw h0)⟩

/-- INIT fills H from the IV, with PARAM in word 0 (R108). -/
theorem initFile_eq (lanes : Nat) :
    initFile lanes =
      #v[splat lanes (iv[0] ^^^ param), splat lanes iv[1], splat lanes iv[2], splat lanes iv[3], splat lanes iv[4],
         splat lanes iv[5], splat lanes iv[6], splat lanes iv[7]] := by
  simp only [← vxor_splat]
  rfl

theorem exec_init (s : State) : exec .init s = .next s.initStep.complete := rfl

/-- What INIT reads, it leaves alone: it is idempotent (R108). -/
theorem initStep_complete_initStep_complete (s : State) :
    s.initStep.complete.initStep.complete = s.initStep.complete := rfl

/-- Settles O8: H is `initFile_eq`, a second INIT finds its own result, and the issue is the INIT clause of O4. -/
theorem initResult : Obligations.InitResult := by
  refine ⟨fun s => ?_, fun s => ?_, fun s w rest hs hidle h hw => ?_⟩
  · rw [exec_init, State.initStep, initFile_eq]
    rfl
  · rw [runInstrs_cons (exec_init s), runInstrs_cons (exec_init s), runInstrs_cons (exec_init _),
      initStep_complete_initStep_complete]
  · obtain ⟨-, -, -, -, -, hinit, -⟩ := issueChecksInOrder s w rest hs h
    exact hinit hidle hw

/-! ### The counters of a message -/

/-- The last block ends with the message (R111). -/
theorem byteOffset_last (len : Nat) : byteOffset len (blockCount len - 1) = 8 * len := by
  unfold byteOffset blockCount
  split <;> omega

/-- The last block is the final one (R112). -/
theorem finalFlag_last (len : Nat) : finalFlag len (blockCount len - 1) = true := by
  simp [finalFlag]

/-- Every block but the last is full (R111). -/
theorem byteOffset_of_not_last {len n : Nat} (h : n + 1 < blockCount len) : byteOffset len n = 128 * (n + 1) := by
  unfold blockCount at h
  unfold byteOffset
  split at h <;> omega

/-- B is the least number of blocks of 16 words that hold the message (R110). -/
theorem blockCount_bounds {len : Nat} (h : len ≠ 0) :
    16 * (blockCount len - 1) < len ∧ len ≤ 16 * blockCount len := by
  unfold blockCount
  rw [if_neg h]
  omega

/-- Settles O33, clause by clause. -/
theorem blockCountersOfAMessage : Obligations.BlockCountersOfAMessage := by
  refine fun len => ⟨rfl, blockCount_bounds, fun n => byteOffset_of_not_last, byteOffset_last len, fun hl n => ?_,
    fun n _ => by simp [finalFlag]⟩
  have hle : byteOffset len n ≤ len * 8 := Nat.mul_le_mul_right 8 (Nat.min_le_right ..)
  omega

/-! ### BUILD -/

theorem exec_build (n : Nat) (s : State) : exec (.build n) s = execBuild n s := rfl

/-- Lane j of the words that BUILD leaves (R113). -/
theorem laneOf_buildBlock {s : State} {j : Nat} (hj : j < s.cfg.lanes) (len n k : Nat) (hk : k < 16) :
    laneOf (s.buildBlock len n).m[k] j = s.blockWord len n k j := by
  rw [State.buildBlock_m, getElem_tabulate, laneOf_map_range hj]

/-- Settles O30: BUILD completes, and each word is `blockWord`. -/
theorem buildPadsWithZeroWords : Obligations.BuildPadsWithZeroWords := by
  intro s n hw
  refine ⟨(s.buildBlock s.len.toNat n).m, execBuild_of_written hw, fun k j hj => ?_⟩
  have lane : laneOf (s.buildBlock s.len.toNat n).m[k] j = s.blockWord s.len.toNat n k j :=
    laneOf_buildBlock hj _ n k k.2
  rw [lane, State.blockWord]
  refine ⟨fun w hk hr => ?_, fun hk => ?_⟩
  · rw [if_pos hk, hr, Option.getD_some]
  · rw [if_neg (by omega)]

theorem mem_blockIndices {len n k : Nat} (hk : k < 16) (h : 16 * n + k < len) : 16 * n + k ∈ blockIndices len n := by
  simp [blockIndices, hk, h]

/-- An unwritten cell at one of the word indices is found, or another is before it. -/
theorem exists_firstUnwritten {s : State} {ks : List Nat} {j k : Nat} (hk : k ∈ ks) (hj : j < s.cfg.lanes)
    (hu : s.readMsg j k = none) : ∃ j' k', s.firstUnwritten ks = some (j', k') := by
  cases h : s.firstUnwritten ks with
  | none => exact absurd hu (firstUnwritten_eq_none.1 h k hk j hj)
  | some c => exact ⟨c.1, c.2, rfl⟩

/-- Settles O31: BUILD's search finds an unwritten cell, and the fault is recorded. -/
theorem buildOverUnwrittenCellFaults : Obligations.BuildOverUnwrittenCellFaults := by
  intro s n j k hf hj hk hl hu
  obtain ⟨j', k', h⟩ := exists_firstUnwritten (mem_blockIndices hk hl) hj hu
  obtain ⟨-, -, hu'⟩ := firstUnwritten_eq_some h
  refine ⟨j', k', hu', ?_⟩
  rw [exec_build, execBuild, h]
  exact congrArg _ (raise_of_unfaulted hf _)

/-! ### HASH over an unwritten cell -/

theorem exec_hash (s : State) : exec .hash s = execHash s := rfl

/-- Settles O12: HASH's search finds a cell that is least (`firstUnwritten_least`), and only one cell is. -/
theorem hashOverUnwrittenCellFaultsFirst : Obligations.HashOverUnwrittenCellFaultsFirst := by
  intro s j k hf hj hk hu hleast
  obtain ⟨j', k', h⟩ := exists_firstUnwritten (List.mem_range.2 hk) hj hu
  obtain ⟨hk', hj', hu'⟩ := firstUnwritten_eq_some h
  have le := firstUnwritten_least h hj hk hu
  have ge := hleast j' k' hj' (List.mem_range.1 hk') hu'
  obtain ⟨rfl, rfl⟩ : j' = j ∧ k' = k := by omega
  rw [exec_hash, execHash, h]
  exact congrArg _ (raise_of_unfaulted hf _)

/-! ### HASH by its blocks -/

/-- BUILD(n), T0 = T(n) and COMPRESS(F(n)) over a written message, one block after the other, are the blocks of HASH
and the end of the command (R114, R117). -/
theorem runBlocks_of_written {s : State} (hw : s.MessageWritten) (ns : List Nat) :
    runBlocks s.len.toNat ns s.complete = .next (ns.foldl (fun t n => t.hashBlock s.len.toNat n) s).complete := by
  induction ns generalizing s with
  | nil => rfl
  | cons n ns ih =>
    have hbuild : exec (.build n) s.complete = .next (s.complete.buildBlock s.len.toNat n) :=
      execBuild_of_written fun j k hj _ hk => hw j _ hj hk
    rw [runBlocks, hbuild]
    exact ih (s := s.hashBlock s.len.toNat n) hw

/-- Settles O10: after INIT the blocks are `runBlocks_of_written`, and none of them looks at BTOTAL. -/
theorem hashIsInitThenCompressOfEachBlock : Obligations.HashIsInitThenCompressOfEachBlock := by
  intro s hw
  refine ⟨_, _, exec_init s, runBlocks_of_written (s := s.initStep) hw _, ?_⟩
  rw [exec_hash, execHash_of_written hw, State.hashMessage, ← hashBlocks_btotal]
  rfl

theorem SameButBlockState.cfg_eq {s t : State} (h : SameButBlockState s t) : t.cfg = s.cfg := by
  unfold SameButBlockState at h
  exact (congrArg State.cfg h :)

theorem SameButBlockState.msg_eq {s t : State} (h : SameButBlockState s t) : t.msg = s.msg := by
  unfold SameButBlockState at h
  exact (congrArg State.msg h :)

/-- HASH ends with its last block, on a state with the configuration and the message of the first. -/
theorem hashMessage_eq_last (s : State) (len : Nat) :
    ∃ t : State, t.cfg = s.cfg ∧ t.msg = s.msg ∧ s.hashMessage len = t.hashBlock len (blockCount len - 1) := by
  obtain ⟨b, hb⟩ : ∃ b, blockCount len = b + 1 := Nat.exists_eq_add_one.2 (blockCount_pos len)
  let start : State := { s.initStep with btotal := BitVec.ofNat 64 (blockCount len) }
  have same := hashBlocks_same len (List.range b) start
  refine ⟨_, same.cfg_eq, same.msg_eq, ?_⟩
  rw [State.hashMessage, hb, List.range_succ, List.foldl_concat, Nat.add_sub_cancel, ← hb]

/-- The block that BUILD makes is a function of the configuration and the message. -/
theorem buildBlock_m_congr {s u : State} (hc : s.cfg = u.cfg) (hm : s.msg = u.msg) (len n : Nat) :
    (s.buildBlock len n).m = (u.buildBlock len n).m := by
  simp only [State.buildBlock_m, State.blockWord, State.readMsg, hc, hm]

section

variable (s : State) (len : Nat)

theorem hashMessage_isFinal : (s.hashMessage len).isFinal = true := by
  obtain ⟨t, -, -, h⟩ := hashMessage_eq_last s len
  rw [h]
  exact finalFlag_last len

theorem hashMessage_t0 : (s.hashMessage len).t0 = BitVec.ofNat 64 (8 * len) := by
  obtain ⟨t, -, -, h⟩ := hashMessage_eq_last s len
  rw [h, ← byteOffset_last]
  rfl

theorem hashMessage_m : (s.hashMessage len).m = (s.buildBlock len (blockCount len - 1)).m := by
  obtain ⟨t, hc, hm, h⟩ := hashMessage_eq_last s len
  rw [h]
  exact buildBlock_m_congr hc hm len _

theorem hashMessage_bcount : (s.hashMessage len).bcount = BitVec.ofNat 64 (blockCount len) := by
  rw [State.hashMessage, hashBlocks_bcount]
  simp

theorem hashMessage_btotal : (s.hashMessage len).btotal = BitVec.ofNat 64 (blockCount len) :=
  congrArg State.btotal (hashMessage_same s len)

end

/-- A word of a block is the message's word at its place, or 0 past the end (R113). -/
theorem blockWord_eq_getD (s : State) (n k j : Nat) :
    s.blockWord s.len.toNat n k j = (s.laneMessage j).getD (16 * n + k) 0 := by
  unfold State.blockWord State.laneMessage
  split <;> simp [*]

/-- Settles O11: the frame is `hashMessage_same`; the last block leaves FINAL, T0 and M. -/
theorem hashLeavesCountersAndLastBlock : Obligations.HashLeavesCountersAndLastBlock := by
  intro s hw
  refine ⟨(s.hashMessage s.len.toNat).h, (s.hashMessage s.len.toNat).v, (s.hashMessage s.len.toNat).m, ?_,
    fun k j hj => ?_⟩
  · rw [exec_hash, execHash_of_written hw, hashMessage_same, hashMessage_t0, hashMessage_bcount, hashMessage_isFinal]
    rfl
  · rw [hashMessage_m, ← blockWord_eq_getD]
    exact laneOf_buildBlock hj _ _ k k.2

/-! ### HASH from LEN and MSG alone -/

/-- The hash state after blocks of HASH, as a fold over hash states: a compression of each block (R114). -/
theorem hashBlocks_h (len : Nat) (ns : List Nat) (s : State) :
    (ns.foldl (fun t n => t.hashBlock len n) s).h =
      ns.foldl (fun h n => compressedH s.cfg.lanes h (s.buildBlock len n).m (BitVec.ofNat 64 (byteOffset len n))
        (finalFlag len n)) s.h := by
  induction ns generalizing s with
  | nil => rfl
  | cons n ns ih => exact ih (s.hashBlock len n)

theorem hashMessage_h (s : State) (len : Nat) :
    (s.hashMessage len).h =
      (List.range (blockCount len)).foldl (fun h n => compressedH s.cfg.lanes h (s.buildBlock len n).m
        (BitVec.ofNat 64 (byteOffset len n)) (finalFlag len n)) (initFile s.cfg.lanes) :=
  hashBlocks_h len _ _

/-- Settles O13: H, M and the counters that HASH leaves are functions of the configuration, LEN and MSG. -/
theorem hashDependsOnlyOnLenAndMsg : Obligations.HashDependsOnlyOnLenAndMsg := by
  intro s u hc hl hm hw
  have hw' : u.MessageWritten := by
    unfold State.MessageWritten State.readMsg at *
    rwa [← hc, ← hl, ← hm]
  refine ⟨_, _, execHash_of_written hw, execHash_of_written hw', ?_⟩
  have block := buildBlock_m_congr hc hm u.len.toNat
  simp only [State.complete_h, State.complete_m, State.complete_t0, State.complete_bcount, State.complete_btotal,
    State.complete_isFinal, hashMessage_h, hashMessage_m, hashMessage_t0, hashMessage_bcount, hashMessage_btotal,
    hashMessage_isFinal, hl, hc, block, and_self]

/-! ### HASH lane by lane -/

/-- The block that BUILD makes has a value for every lane. -/
theorem FileShaped.buildBlock (s : State) (len n : Nat) : FileShaped s.cfg.lanes (s.buildBlock len n).m :=
  FileShaped.tabulate fun _ => by simp

@[simp] theorem length_laneMessage (s : State) (j : Nat) : (s.laneMessage j).length = s.len.toNat := by
  simp [State.laneMessage]

section

variable {s : State} {j : Nat} (hj : j < s.cfg.lanes)
include hj

/-- Lane j of a block is the scalar block of lane j's message (R113). -/
theorem lane16_buildBlock (n : Nat) :
    lane16 (s.buildBlock s.len.toNat n).m j = scalarBlock (s.laneMessage j) n := by
  ext k hk : 1
  rw [getElem_lane16, laneOf_buildBlock hj, blockWord_eq_getD, scalarBlock, getElem_tabulate]

/-- Lane j of compressions of blocks is the scalar compressions of the scalar blocks (R93). -/
theorem laneH_compressBlocks (t : Nat → Word) (f : Nat → Bool) (ns : List Nat) {h : HFile}
    (hh : FileShaped s.cfg.lanes h) :
    laneH (ns.foldl (fun h n => compressedH s.cfg.lanes h (s.buildBlock s.len.toNat n).m (t n) (f n)) h) j =
      ns.foldl (fun h n => scalarCompress h (scalarBlock (s.laneMessage j) n) (t n) (f n)) (laneH h j) := by
  induction ns generalizing h with
  | nil => rfl
  | cons n ns ih =>
    have hm := FileShaped.buildBlock s s.len.toNat n
    rw [List.foldl_cons, List.foldl_cons, ih (hh.compressedH hm (t n) (f n)), laneH_compressedH hj hm hh,
      lane16_buildBlock hj]

/-- Lane j of the hash state that HASH leaves is the scalar hash of lane j's message (R118). -/
theorem laneH_hashMessage : laneH (s.hashMessage s.len.toNat).h j = scalarHash (s.laneMessage j) := by
  rw [hashMessage_h, laneH_compressBlocks hj _ _ _ (FileShaped.initFile _), laneH_initFile hj, scalarHash,
    length_laneMessage]

end

/-- The digest words are the first four of the lane's hash state (R116). -/
theorem digestWords_eq_take (s : State) (j : Nat) : s.digestWords j = (laneH s.h j).toList.take 4 := rfl

/-- Settles O14: the lane's hash state is `laneH_hashMessage`, and the digest is its first four words. -/
theorem hashLaneIsScalarBlake2b : Obligations.HashLaneIsScalarBlake2b := by
  intro s _ hw
  refine ⟨_, execHash_of_written hw, fun j hj => ?_⟩
  have lane : laneH (s.hashMessage s.len.toNat).complete.h j = scalarHash (s.laneMessage j) := laneH_hashMessage hj
  refine ⟨lane, fun bytes _ hbytes => ?_⟩
  rw [State.digest, digestWords_eq_take, lane, blake2b256, hbytes]

/-! ### The digest -/

@[simp] theorem length_wordBytes (w : Word) : (wordBytes w).length = 8 := by simp [wordBytes]

/-- Byte t of word i stands at 8i + t (R41). -/
theorem getElem?_flatMap_wordBytes (ws : List Word) (i : Nat) {t : Nat} (ht : t < 8) :
    (ws.flatMap wordBytes)[8 * i + t]? = ws[i]?.map (wordByte · t) := by
  induction ws generalizing i with
  | nil => simp
  | cons w ws ih =>
    rw [List.flatMap_cons]
    cases i with
    | zero =>
      rw [List.getElem?_append_left (by simpa using ht)]
      simp [wordBytes, ht]
    | succ i =>
      have next : 8 * (i + 1) + t - 8 = 8 * i + t := by omega
      rw [List.getElem?_append_right (by rw [length_wordBytes]; omega), length_wordBytes, next, ih,
        List.getElem?_cons_succ]

/-- The digest words are the first four words of H (R116). -/
theorem getElem?_digestWords (s : State) (j : Nat) (i : Fin 4) :
    (s.digestWords j)[i.val]? = some (laneOf s.h[i.val] j) := by
  fin_cases i <;> rfl

theorem length_digest (s : State) (j : Nat) : (s.digest j).length = 32 := by
  simp [State.digest, State.digestWords]

/-- Settles O45: the read is O36's clause for H; the bytes stand word by word. -/
theorem digestReadout : Obligations.DigestReadout := by
  intro s i j off rest hs hidle hj ho h
  obtain ⟨-, -, -, -, -, -, -, -, hread, -⟩ := idleReadIsExact s off rest hs hidle h
  have word := getElem?_digestWords s j i
  refine ⟨_, hread (i.castLE (by decide)) j hj ho, word, length_digest s j, fun t => ?_⟩
  rw [State.digest, getElem?_flatMap_wordBytes _ _ t.2, word]
  rfl

end Sys2Proof.Machine
end

section
/-! PROOFS. Exceptions (spec/60_exceptions.md): the configuration refusal, the faulted machine, what can change ERR. -/

namespace Sys2Proof.Machine

/-! ### The configuration refusal -/

/-- Settles O48: such a configuration is not admitted (`admitted_bounds`), and the step of one that is not is its
refusal. -/
theorem badConfigurationIsRefused : Obligations.BadConfigurationIsRefused := by
  intro s hbad
  have hc : ¬ admitted s.cfg = true := by
    intro hc
    obtain ⟨hn, hlow, hhigh⟩ := admitted_bounds hc
    rcases hbad with hbad | hbad | hbad
    · exact hbad hn
    · omega
    · omega
  unfold step
  rw [if_neg hc]
  rfl

/-! ### The faulted machine -/

/-- Every event of a faulted machine but reset stops with the fault (R134). -/
theorem runFaulted_of_ne_reset {e : Event} (h : e ≠ .resetInput) (s : State) (f : Fault) :
    runFaulted s f e = .fault f := by
  cases e with
  | resetInput => exact absurd rfl h
  | busRead off size => rfl
  | busWrite off size w => rfl
  | engineTurn => rfl

/-- Settles O49: only reset answers a next state (`step_next`), and it keeps FAULTED; every other event stops. -/
theorem faultedIsNeverCleared : Obligations.FaultedIsNeverCleared := by
  intro s f hc hf
  refine ⟨fun s' h => ?_, fun hne => ?_⟩
  · obtain ⟨-, ⟨hf', -, -⟩ | ⟨-, -, hf', -, -⟩ | ⟨f', rest, -, -, rfl⟩⟩ := step_next h
    · exact nomatch hf'.symm.trans hf
    · exact nomatch hf'.symm.trans hf
    · exact hf
  · rw [step_of_admitted hc]
    obtain hs | ⟨e, rest, hs⟩ := eq_nil_or_cons s.schedule
    · exact runNext_of_faulted_nil hf hs
    · rw [runNext_of_faulted hf hs]
      exact runFaulted_of_ne_reset (fun he => hne rest (he ▸ hs)) _ f

/-! ### What can change ERR -/

/-- A pending command is never NOP (R109). -/
theorem Pending.toInstr_ne_nop (p : Pending) : p.toInstr ≠ .nop := by
  cases p <;> exact nofun

/-- The engine's turn keeps ERR: no completion changes it (R126). -/
theorem engineStep_err {s s' : State} (h : engineStep s = .next s') : s'.err = s.err := by
  rcases engineStep_next h with ⟨-, rfl⟩ | ⟨p, -, h⟩
  · rfl
  · rw [(exec_keeps h).err, if_neg p.toInstr_ne_nop]

/-- A host read keeps ERR (R44). -/
theorem busRead_err (s : State) (off : Offset) (size : Nat) : (s.busRead off size).err = s.err := by
  rcases busRead_cases s off size with ⟨w, e⟩ | e | ⟨f, e⟩ <;> exact (congrArg State.err e :)

/-- A host write keeps ERR, unless it is a write to CMD or is dropped while busy with BUSY_WRITE (R55, R126, R130). -/
theorem busWrite_err_cases (s : State) (off : Offset) (size : Nat) (w : Word) :
    (s.busWrite off size w).err = s.err ∨ (off = 0x10 ∧ size = 8) ∨
      (size = 8 ∧ s.busy = true ∧ (s.busWrite off size w).err = .busyWrite) := by
  rcases busWrite_cases s off size w with
    ⟨f, e⟩ | ⟨hl, -⟩ | ⟨h8, hb, e⟩ | ⟨-, e | e | ⟨k, j, e⟩ | ⟨j, k, -, e⟩⟩
  case inr.inl => exact .inr (.inl (locate_cmd hl))
  case inr.inr.inl => exact .inr (.inr ⟨h8, hb, (congrArg State.err e :)⟩)
  all_goals exact .inl (congrArg State.err e :)

/-- Settles O57: of all that a step can be (`step_next`), the engine's turn (`engineStep_err`) and a read
(`busRead_err`) keep ERR, a write is as `busWrite_err_cases` says, and reset clears it. -/
theorem errIsKeptOtherwise : Obligations.ErrIsKeptOtherwise := by
  intro s s' h hne
  obtain ⟨-, ⟨-, -, h⟩ | ⟨e, rest, -, hs, h⟩ | ⟨f, rest, -, hs, rfl⟩⟩ := step_next h
  · exact absurd (engineStep_err h) hne
  · cases e with
    | busRead off size =>
      obtain rfl := Host.Outcome.next.inj h
      exact absurd (busRead_err { s with schedule := rest } off size) hne
    | busWrite off size w =>
      obtain rfl := Host.Outcome.next.inj h
      rcases busWrite_err_cases { s with schedule := rest } off size w with he | ⟨rfl, rfl⟩ | ⟨rfl, hb, he⟩
      · exact absurd he hne
      · exact .inr (.inl ⟨w, rest, hs⟩)
      · exact .inr (.inr ⟨off, w, rest, hs, hb, he⟩)
    | engineTurn => exact absurd (engineStep_err h) hne
    | resetInput =>
      obtain rfl := Host.Outcome.next.inj h
      exact .inl ⟨rest, hs, rfl⟩
  · exact .inl ⟨rest, hs, rfl⟩

end Sys2Proof.Machine
end

section
/-! PROOFS. Reset (spec/70_reset_and_hazards.md R145 to R148): the one step that asserts it, and the state it leaves. -/

namespace Sys2Proof.Machine

/-! ### The step -/

/-- Asserting reset resets the block, whether or not the machine is faulted (R145, R147). -/
theorem step_of_resetInput {s : State} {rest : List Event} (hc : admitted s.cfg = true)
    (h : s.schedule = .resetInput :: rest) : step s = .next (State.resetBlock { s with schedule := rest }) := by
  obtain hf | ⟨f, hf⟩ := s.faulted.eq_none_or_eq_some
  · exact State.Running.step_reset ⟨hc, hf⟩ h
  · rw [step_of_admitted hc, runNext_of_faulted hf h]
    rfl

/-! ### The state it leaves -/

/-- Every lane of a file of zero vector words is 0, a lane past N too: `laneOf` answers 0 there. -/
theorem laneOf_getElem_zeroFile {m : Nat} (lanes : Nat) (k : Fin m) (j : Nat) :
    laneOf (Vector.replicate m (List.replicate lanes (0 : Word)))[k] j = 0 := by
  rw [Fin.getElem_fin, Vector.getElem_replicate, laneOf, List.getD_eq_getElem?_getD,
    List.getElem?_getD_replicate_default_eq]

theorem State.resetBlock_shaped (s : State) : s.resetBlock.Shaped :=
  (State.resetWith_shaped s.cfg).congr rfl rfl rfl rfl rfl rfl

theorem State.laneOf_resetBlock_h (s : State) (k : Fin 8) (j : Nat) : laneOf s.resetBlock.h[k] j = 0 :=
  laneOf_getElem_zeroFile s.cfg.lanes k j

theorem State.laneOf_resetBlock_m (s : State) (k : Fin 16) (j : Nat) : laneOf s.resetBlock.m[k] j = 0 :=
  laneOf_getElem_zeroFile s.cfg.lanes k j

theorem State.laneOf_resetBlock_v (s : State) (k : Fin 16) (j : Nat) : laneOf s.resetBlock.v[k] j = 0 :=
  laneOf_getElem_zeroFile s.cfg.lanes k j

/-- Every cell of the message memory is unwritten after reset (R21, R148). -/
theorem State.readMsg_resetBlock (s : State) (j k : Nat) : s.resetBlock.readMsg j k = none := Memory.read_nil _

/-- STATUS is 0 after reset: idle, not final, no error (R25, R148). -/
theorem State.statusWord_resetBlock (s : State) : s.resetBlock.statusWord = 0 := by
  simp [State.statusWord, State.resetBlock, State.resetWith, flagBit, errBits]

/-- Settles O47: the step is `step_of_resetInput`; the files, MSG and STATUS are the lemmas above, and every other field
is one that reset sets or keeps. -/
theorem resetValues : Obligations.ResetValues := by
  intro s rest hc hs
  refine ⟨_, step_of_resetInput hc hs, rfl, rfl, rfl, rfl, rfl, ?h, ?m, ?v, ?shaped, ?msg, ?status,
    rfl, rfl, rfl, rfl, rfl, rfl⟩
  case h => exact State.laneOf_resetBlock_h _
  case m => exact State.laneOf_resetBlock_m _
  case v => exact State.laneOf_resetBlock_v _
  case shaped => exact State.resetBlock_shaped _
  case msg => exact State.readMsg_resetBlock _
  case status => exact State.statusWord_resetBlock _

end Sys2Proof.Machine
end
